-- ==== Sys2Proof/Word.lean ====
section
/-! DEFINITION. The word type: a memory cell, the accumulator and an instruction are each one 16-bit word
(00_scope.md R5; 10_state.md R23). -/

namespace Sys2Proof

/-- A 16-bit word with no type tag (00_scope.md R11; 10_state.md R23). Bit 0 is the least significant (R10). -/
abbrev Word := BitVec 16

end Sys2Proof
end

