-- ==== Sys2Proof/Syntax.lean ====
section
/-! DEFINITION. The instructions as syntax: one mnemonic and one constructor for each of the 11 rows of the opcode
table (41_engine.md R73; 30_encoding.md R47, R54). -/

namespace Sys2Proof

/-- The 11 mnemonics of the closed registry, in registry order (41_engine.md R73; 30_encoding.md R54).
`endRun` is END, whose own name is a word of Lean. -/
inductive Mnemonic where
  | add | sub | store | clear | or | and | shiftr | shiftl | bge | blt | endRun
  deriving DecidableEq, Repr

/-- An instruction: a mnemonic with its 11-bit operand field as a natural number (41_engine.md R75, `Instr(m, operand)`;
00_scope.md R14). CLEAR and END carry their unused operand bits, which the trace record shows
(30_encoding.md R53; 41_engine.md R82). The bound 0..2047 is `Instr.WellFormed`. -/
inductive Instr where
  /-- ADD address (42_add_sub.md R83) -/
  | add (operand : Nat)
  /-- SUB address (42_add_sub.md R84) -/
  | sub (operand : Nat)
  /-- STORE address (43_store_clear.md R85) -/
  | store (operand : Nat)
  /-- CLEAR, operand unused (43_store_clear.md R86) -/
  | clear (operand : Nat)
  /-- OR address (44_bitwise.md R87) -/
  | or (operand : Nat)
  /-- AND address (44_bitwise.md R88) -/
  | and (operand : Nat)
  /-- SHIFTR count (45_shift.md R89) -/
  | shiftr (operand : Nat)
  /-- SHIFTL count (45_shift.md R90) -/
  | shiftl (operand : Nat)
  /-- BGE target (46_branch_halt.md R92) -/
  | bge (operand : Nat)
  /-- BLT target (46_branch_halt.md R93) -/
  | blt (operand : Nat)
  /-- END, operand unused (46_branch_halt.md R94) -/
  | endRun (operand : Nat)
  deriving DecidableEq, Repr

/-- The mnemonic of an instruction. -/
def Instr.mnemonic : Instr → Mnemonic
  | .add _ => .add
  | .sub _ => .sub
  | .store _ => .store
  | .clear _ => .clear
  | .or _ => .or
  | .and _ => .and
  | .shiftr _ => .shiftr
  | .shiftl _ => .shiftl
  | .bge _ => .bge
  | .blt _ => .blt
  | .endRun _ => .endRun

/-- The operand field of an instruction. -/
def Instr.operand : Instr → Nat
  | .add k => k
  | .sub k => k
  | .store k => k
  | .clear k => k
  | .or k => k
  | .and k => k
  | .shiftr k => k
  | .shiftl k => k
  | .bge k => k
  | .blt k => k
  | .endRun k => k

/-- `Instr(m, operand)` of 41_engine.md R75. -/
def Instr.ofMnemonic : Mnemonic → Nat → Instr
  | .add, k => .add k
  | .sub, k => .sub k
  | .store, k => .store k
  | .clear, k => .clear k
  | .or, k => .or k
  | .and, k => .and k
  | .shiftr, k => .shiftr k
  | .shiftl, k => .shiftl k
  | .bge, k => .bge k
  | .blt, k => .blt k
  | .endRun, k => .endRun k

/-- The instructions whose operand is an address checked against N and accessed in memory
(30_encoding.md R52; 60_exceptions.md R99, check 3). -/
def Instr.addressesMemory : Instr → Bool
  | .add _ => true
  | .sub _ => true
  | .store _ => true
  | .clear _ => false
  | .or _ => true
  | .and _ => true
  | .shiftr _ => false
  | .shiftl _ => false
  | .bge _ => false
  | .blt _ => false
  | .endRun _ => false

end Sys2Proof
end

