-- ==== Sys2Proof/Config.lean ====
section
/-! DEFINITION. What is fixed for a machine: the widths (00_scope.md R5) and the parameter OPCODE_MAP (R9), the numeric
opcode of each mnemonic, which is configuration and not state (10_state.md R27). The map in use, REF_MAP, is
`Sys2Proof.refMap` of Decode.lean (log 1). The other parameters, MEM_SIZE, IMAGE and START_PC (R6, R7, R8), are arguments
of `Machine.State.resetWith`. -/

namespace Sys2Proof

/-- WORD_WIDTH (00_scope.md R5). -/
abbrev Config.wordWidth : Nat := 16

/-- OPCODE_WIDTH (00_scope.md R5). -/
abbrev Config.opcodeWidth : Nat := 5

/-- OPERAND_WIDTH (00_scope.md R5). -/
abbrev Config.operandWidth : Nat := 11

/-- MAG_WIDTH (00_scope.md R5). -/
abbrev Config.magWidth : Nat := 15

/-- MAX_MEM = 2048 = 2^11 words, the largest N (00_scope.md R5, R6). -/
abbrev Config.maxMem : Nat := 2048

/-- The parameter OPCODE_MAP: a numeric opcode for each mnemonic (00_scope.md R9). It is no part of State (10_state.md R27). -/
abbrev OpcodeMap := Mnemonic → Nat

/-- The constraints on OPCODE_MAP (00_scope.md R9). -/
structure OpcodeMap.Admissible (m : OpcodeMap) : Prop where
  /-- (a) values in 0..31 -/
  lt_32 : ∀ k, m k < 32
  /-- (b) injective -/
  injective : ∀ j k, m j = m k → j = k
  /-- (c) 9 is not taken -/
  ne_9 : ∀ k, m k ≠ 9

end Sys2Proof
end

