-- ==== Sys2Proof/WellFormed.lean ====
section
/-! DEFINITION. Which instructions as syntax exist: those whose operand fits the 11-bit field (30_encoding.md R47, R52). -/

namespace Sys2Proof

/-- The operand is a value of the 11-bit field, 0..2047 (30_encoding.md R52). It holds for every mnemonic alike: for
CLEAR and END the unused operand is any value of the field (R53). -/
abbrev Instr.WellFormed (i : Instr) : Prop := i.operand < 2 ^ Config.operandWidth

end Sys2Proof
end

