-- ==== Sys2Proof/Decode.lean ====
section
/-! DEFINITION. The Word Encoding block and the decode half of the registry: field extraction, the encoder, OPCODE_MAP's
reference assignment, decode and its inverse (30_encoding.md R49, R50, R54; 41_engine.md R73, R75). -/

namespace Sys2Proof

/-- `decode_opcode(w) = w >> 11`, the 5-bit field 15:11 (30_encoding.md R49). -/
def decodeOpcode (w : Word) : Nat := w.toNat >>> 11

/-- `decode_operand(w) = w & 0x7FF`, the 11-bit field 10:0, never sign-extended (30_encoding.md R49, R52). -/
def decodeOperand (w : Word) : Nat := w.toNat &&& 0x7FF

/-- The mnemonics in registry order (41_engine.md R73). -/
def registryOrder : List Mnemonic :=
  [.add, .sub, .store, .clear, .or, .and, .shiftr, .shiftl, .bge, .blt, .endRun]

/-- REF_MAP, the spec's reference assignment (30_encoding.md R54; 92_eei_decisions.md D1; log 1). -/
def refMap : OpcodeMap
  | .add => 0
  | .sub => 1
  | .store => 2
  | .clear => 3
  | .or => 4
  | .and => 5
  | .shiftr => 6
  | .shiftl => 7
  | .bge => 8
  | .blt => 10
  | .endRun => 11

/-- DESIGN CHOICE (log 1): the OPCODE_MAP that the definitions without a map argument use. It is REF_MAP, the map of
spec/opcode_table.json; every definition also has a form that takes an OPCODE_MAP. -/
def opcodeMap : OpcodeMap := refMap

/-- The display name of a descriptor: the mnemonic in capitals (41_engine.md R73; 92_eei_decisions.md D25; log 19). -/
def displayName : Mnemonic → String
  | .add => "ADD"
  | .sub => "SUB"
  | .store => "STORE"
  | .clear => "CLEAR"
  | .or => "OR"
  | .and => "AND"
  | .shiftr => "SHIFTR"
  | .shiftl => "SHIFTL"
  | .bge => "BGE"
  | .blt => "BLT"
  | .endRun => "END"

/-- The Instruction view of a word: an instruction, or the marker `Unknown(opcode)` (41_engine.md R75; 20_memory.md R46). -/
inductive Decoded where
  | instr (i : Instr)
  | unknown (opcode : Nat)
  deriving DecidableEq, Repr

/-- `exists m with OPCODE_MAP(m) == op` (41_engine.md R75): the mnemonic with that opcode, if any. -/
def lookupOpcode (m : OpcodeMap) (op : Nat) : Option Mnemonic :=
  registryOrder.find? (fun k => m k == op)

/-- `decode(w)` under an OPCODE_MAP: total on every word; an opcode with no registry entry is rejected as `Unknown(op)`,
with no fallback (41_engine.md R75; 30_encoding.md R55). -/
def decodeWith (m : OpcodeMap) (w : Word) : Decoded :=
  match lookupOpcode m (decodeOpcode w) with
  | some k => .instr (Instr.ofMnemonic k (decodeOperand w))
  | none => .unknown (decodeOpcode w)

/-- `decode(w)` under the map in use (log 1). -/
def decode (w : Word) : Decoded := decodeWith opcodeMap w

/-- `encode(op, operand)`, for any natural numbers: the opcode masked to 5 bits and the operand to 11
(30_encoding.md R50, a known truncation with no error condition). -/
def encodeFields (op operand : Nat) : Word :=
  BitVec.ofNat 16 (((op &&& 0x1F) <<< 11) ||| (operand &&& 0x7FF))

/-- The word `encode(OPCODE_MAP(M), k)` of an instruction (30_encoding.md R50, R57). -/
def encodeWith (m : OpcodeMap) (i : Instr) : Word := encodeFields (m i.mnemonic) i.operand

/-- The word of an instruction under the map in use (log 1). -/
def encode (i : Instr) : Word := encodeWith opcodeMap i

/-- The one word that the low `nbits` bits of `w` give, the bits above them zero. -/
def tableWord (nbits w : Nat) : Word := BitVec.ofNat 16 (w % 2 ^ nbits)

/-- What the decoder reads from an instruction word numbered as spec/opcode_table.json numbers it (one word, bit 0 the
least significant: 30_encoding.md R47, R48; 00_scope.md R10); none where the opcode has no registry entry. -/
def decodeTableWord (nbits w : Nat) : Option Instr :=
  match decode (tableWord nbits w) with
  | .instr i => some i
  | .unknown _ => none

end Sys2Proof
end

