-- ==== Sys2Proof/Machine/State.lean ====
section
/-! DEFINITION. The state of the core as plain data: acc, pc, mem and status (10_state.md section 1), and the output of
the trace port (R26; log 6); the fault record (60_exceptions.md R95, R96); why a step can stop; the state after reset. -/

namespace Sys2Proof.Machine

/-- Memory: N words of 16 bits at addresses 0..N-1 (10_state.md R22; 20_memory.md R29). `size` is N. `cells` lists the
words other than 0x0000 by word address, in rising order; a cell below N that is not listed holds 0x0000 (log 3).
There are no bytes (20_memory.md R35), so a cell is a word. -/
structure Memory where
  size : Nat
  cells : List (Nat × Word)
  deriving DecidableEq, Repr

/-- The three fault kinds (60_exceptions.md R95). -/
inductive FaultKind where
  | unknownOpcode
  | arithmeticOverflow
  | addressOutOfRange
  deriving DecidableEq, Repr

/-- The `cause` detail of AddressOutOfRange (60_exceptions.md R95). -/
inductive AddressCause where
  | operand
  | fetch
  deriving DecidableEq, Repr

/-- What a raise hands over: a fault kind with its detail fields (60_exceptions.md R95; 00_scope.md R13). -/
inductive FaultDetail where
  /-- the decode phase of a step (41_engine.md R77) -/
  | unknownOpcode (opcode : Nat)
  /-- sm_add; `a` and `b` are its two operands, so for SUB `b` is the flipped word (40_alu.md R65, R66) -/
  | arithmeticOverflow (a b : Word)
  /-- the operand check (20_memory.md R31) or the fetch check (41_engine.md R77) -/
  | addressOutOfRange (cause : AddressCause) (addr : Nat)
  deriving DecidableEq, Repr

/-- The fault record r of `Faulted(r)` (60_exceptions.md R96). `word` is absent for a fetch fault. Its `kind` and `code`
are computed from the detail (Machine/Ops.lean). -/
structure FaultRecord where
  pc : Nat
  word : Option Word
  detail : FaultDetail
  deriving DecidableEq, Repr

/-- The run status (10_state.md R19). Halted and Faulted are terminal (41_engine.md R80). -/
inductive Status where
  | running
  | halted
  | faulted (r : FaultRecord)
  deriving DecidableEq, Repr

/-- A trace record (41_engine.md R82). The mnemonic's text is `displayName`. -/
structure TraceRecord where
  pc : Nat
  mnemonic : Mnemonic
  operand : Nat
  accBefore : Word
  accAfter : Word
  deriving DecidableEq, Repr

/-- The state of the core (10_state.md section 1): the accumulator (R17), the program counter, a natural number that
never wraps (R18), memory (R22) and the run status (R19). `trace` is the trace emitted so far, oldest first: an output
that nothing reads (R26; 70_reset_and_hazards.md R110), held here because a step of Host.Core has no output of its own
(log 6). -/
structure State where
  acc : Word
  pc : Nat
  mem : Memory
  status : Status
  trace : List TraceRecord
  deriving DecidableEq, Repr

/-- Why a step stops: a terminal state is STUCK, the core takes no step from it (41_engine.md R80; log 7). The three
fault kinds of the spec are no constructors here: a raise is a next state with status Faulted
(60_exceptions.md R97; log 4). -/
inductive Fault where
  /-- Raised by the step of a Halted state, by no instruction. Safe: the spec's core takes no step there either. -/
  | haltedTakesNoStep
  /-- Raised by the step of a Faulted state, by no instruction. Safe: the spec's core takes no step there either. -/
  | faultedTakesNoStep (r : FaultRecord)
  deriving DecidableEq, Repr

/-- Why the model gives an instruction no meaning. No arm of exec uses it: every instruction has its meaning. -/
inductive Refusal where
  /-- Raised by an arm of exec whose instruction is not modelled yet (none is left). Safe: the model stops. -/
  | notModelled (mnemonic : String)
  deriving DecidableEq, Repr

/-- The memory of an empty IMAGE: N = 0 and nothing listed (00_scope.md R6, R7). -/
def Memory.empty : Memory := { size := 0, cells := [] }

/-- The state right after reset (70_reset_and_hazards.md R110) for the host parameters IMAGE = [] and START_PC = 0
(DESIGN CHOICE, log 2; R111 admits them). `State.resetWith` of Machine/Reset.lean is reset for every IMAGE and START_PC. -/
def State.reset : State :=
  { acc := 0x0000, pc := 0, mem := Memory.empty, status := .running, trace := [] }

end Sys2Proof.Machine
end

