-- ==== Sys2Proof/Machine/Alu.lean ====
section
/-! DEFINITION. The Sign-Magnitude Arithmetic Unit (40_alu.md) and the Integer view of a word (10_state.md R25). Every
function is pure; only sm_add, and so sm_sub, can raise. -/

namespace Sys2Proof.Machine

/-- `sgn(w) = w[15]` (00_scope.md R12); it is also the accessor `sign_bit` (40_alu.md R59). -/
def sgn (w : Word) : Bool := w.getLsbD 15

/-- `mag(w) = w[14:0]` (00_scope.md R12); it is also the accessor `magnitude` (40_alu.md R59). -/
def mag (w : Word) : Nat := (w.extractLsb 14 0).toNat

/-- `sm(s, m) = (s << 15) | m` (00_scope.md R12). -/
def sm (s : Bool) (m : Nat) : Word := BitVec.ofNat 16 ((s.toNat <<< 15) ||| m)

/-- `is_positive(w)`: sign bit clear; true of +0, false of -0 (40_alu.md R59). No instruction uses it. -/
def isPositive (w : Word) : Bool := !sgn w

/-- The Integer view of a word: sign and magnitude, not normalised (10_state.md R25). -/
structure IntegerView where
  sign : Bool
  magnitude : Nat
  deriving DecidableEq, Repr

/-- The Integer view of `w` (10_state.md R25). -/
def integerView (w : Word) : IntegerView := { sign := sgn w, magnitude := mag w }

/-- `to_int(w)` (40_alu.md R63). -/
def toInt (w : Word) : Int := if sgn w then -(mag w : Int) else (mag w : Int)

/-- `from_int(v)`: the magnitude masked to 15 bits, for every integer (40_alu.md R64; 92_eei_decisions.md D21; log 17). -/
def fromInt (v : Int) : Word := sm (decide (v < 0)) (v.natAbs % 32768)

/-- The text form of the Integer view: `-` when the sign bit is set, then the decimal magnitude (40_alu.md R71). -/
def IntegerView.text (v : IntegerView) : String := (if v.sign then "-" else "") ++ toString v.magnitude

/-- `sm_add(a, b)` (40_alu.md R65). "Same sign" compares the sign bits, so +0 and -0 differ in sign
(92_eei_decisions.md D2; log 9). -/
def smAdd (a b : Word) : Except FaultDetail Word :=
  if sgn a = sgn b then
    if 0x7FFF < mag a + mag b then .error (.arithmeticOverflow a b)
    else .ok (sm (sgn a) (mag a + mag b))
  else if mag b < mag a then .ok (sm (sgn a) (mag a - mag b))
  else if mag a < mag b then .ok (sm (sgn b) (mag b - mag a))
  else .ok 0x0000

/-- `sm_sub(a, b) = sm_add(a, b ^ 0x8000)`; its overflow record holds the flipped word (40_alu.md R66). -/
def smSub (a b : Word) : Except FaultDetail Word := smAdd a (b ^^^ 0x8000)

/-- `sm_or`: all 16 bits (40_alu.md R68). -/
def smOr (a b : Word) : Word := a ||| b

/-- `sm_and`: all 16 bits (40_alu.md R68). -/
def smAnd (a b : Word) : Word := a &&& b

/-- `sm_shr(a, n)`: the magnitude shifted right, the sign reapplied; n of 15 or more gives magnitude 0
(40_alu.md R69; 92_eei_decisions.md D19; log 11). -/
def smShr (a : Word) (n : Nat) : Word := sm (sgn a) (mag a >>> n)

/-- `sm_shl(a, n)`: the magnitude shifted left modulo 2^15, the sign reapplied, never a fault
(40_alu.md R70; 90_conflicts.md C1; log 11). -/
def smShl (a : Word) (n : Nat) : Word := sm (sgn a) ((mag a <<< n) % 32768)

end Sys2Proof.Machine
end

