-- ==== Sys2Proof/Machine/Ops.lean ====
section
/-! DEFINITION. The named operations over memory and registers, raising a fault, and ending a step's body
(20_memory.md R30 to R33; 60_exceptions.md R95 to R97). There is no return from a fault: no trap entry, handler or return
instruction exists (60_exceptions.md R100, R101). -/

namespace Sys2Proof.Machine

/-- What a cell below N that is not listed holds (log 3). -/
def unlistedWord : Word := 0x0000

/-- The listed word at an address, or `unlistedWord`. -/
def lookupCell : List (Nat × Word) → Nat → Word
  | [], _ => unlistedWord
  | (b, x) :: rest, a => if a = b then x else lookupCell rest a

/-- The list with the cell at `a` set to `v`, still in rising order and with no cell that holds `unlistedWord`. -/
def setCell : List (Nat × Word) → Nat → Word → List (Nat × Word)
  | [], a, v => if v = unlistedWord then [] else [(a, v)]
  | (b, x) :: rest, a, v =>
    if a < b then (if v = unlistedWord then (b, x) :: rest else (a, v) :: (b, x) :: rest)
    else if a = b then (if v = unlistedWord then rest else (a, v) :: rest)
    else (b, x) :: setCell rest a v

/-- `MemRead(a, 1)`, the word `mem[a]` of a valid address a (20_memory.md R32). Its callers check the address first. -/
def Memory.word (m : Memory) (a : Nat) : Word := lookupCell m.cells a

/-- The word at `a`, none where no cell exists: an address is valid when `a < N` (20_memory.md R30). -/
def Memory.read? (m : Memory) (a : Nat) : Option Word :=
  if a < m.size then some (m.word a) else none

/-- `MemWrite(a, 1, v)` (20_memory.md R33): the cell at `a` is set, every other cell and N stay. An address with no cell
is left alone; STORE checks the address first (R31), so it never comes to that. -/
def Memory.write (m : Memory) (a : Nat) (v : Word) : Memory :=
  if a < m.size then { m with cells := setCell m.cells a v } else m

/-- The listed cells from address `base` on: every word of the image that is not `unlistedWord`. -/
def imageCells : Nat → List Word → List (Nat × Word)
  | _, [] => []
  | base, w :: ws => if w = unlistedWord then imageCells (base + 1) ws else (base, w) :: imageCells (base + 1) ws

/-- The memory of an IMAGE: N is its length and word i is the content of address i (00_scope.md R6, R7). -/
def Memory.ofImage (image : List Word) : Memory :=
  { size := image.length, cells := imageCells 0 image }

/-- The addresses of the cells rise, each is at least `lo` and below `size`, and no cell holds `unlistedWord`. -/
def cellsWf (size : Nat) : Nat → List (Nat × Word) → Bool
  | _, [] => true
  | lo, (a, x) :: rest => decide (lo ≤ a) && decide (a < size) && decide (x ≠ unlistedWord) && cellsWf size (a + 1) rest

/-- Memory's canonical form (log 3), with N at most 2048 (00_scope.md R6). -/
def Memory.wf (m : Memory) : Bool := decide (m.size ≤ Config.maxMem) && cellsWf m.size 0 m.cells

/-- `acc <- v` (00_scope.md R13). -/
def State.setAcc (s : State) (v : Word) : State := { s with acc := v }

/-- `pc <- target` (00_scope.md R13). -/
def State.setPc (s : State) (target : Nat) : State := { s with pc := target }

/-- `pc <- pc + 1`, exact: it never wraps (10_state.md R18; log 12). -/
def State.advance (s : State) : State := { s with pc := s.pc + 1 }

/-- `MemWrite(a, 1, v)` on the state's memory (20_memory.md R33). -/
def State.store (s : State) (a : Nat) (v : Word) : State := { s with mem := s.mem.write a v }

/-- `status <- S` (00_scope.md R13). -/
def State.setStatus (s : State) (st : Status) : State := { s with status := st }

/-- The word of the instruction being executed: the word at pc, absent where the fetch had no cell (60_exceptions.md R96).
DEDUCED (log 5): a body runs before anything it writes, so mem[pc] is the fetched word. -/
def State.currentWord (s : State) : Option Word := s.mem.read? s.pc

/-- `raise F(info)`, the one operation that takes a fault (60_exceptions.md R97), applied to the state at the start of the
step: acc, pc, mem and the trace stay, and status becomes Faulted with the record of R96. -/
def State.raise (s : State) (d : FaultDetail) : State :=
  s.setStatus (.faulted { pc := s.pc, word := s.currentWord, detail := d })

/-- The kind of a fault (60_exceptions.md R95). -/
def FaultDetail.kind : FaultDetail → FaultKind
  | .unknownOpcode _ => .unknownOpcode
  | .arithmeticOverflow _ _ => .arithmeticOverflow
  | .addressOutOfRange _ _ => .addressOutOfRange

/-- The code of a fault kind, the spec's own numbers (60_exceptions.md R95; 92_eei_decisions.md D9; log 8). -/
def FaultKind.code : FaultKind → Nat
  | .unknownOpcode => 1
  | .arithmeticOverflow => 2
  | .addressOutOfRange => 3

/-- The record's `kind` field (60_exceptions.md R96). -/
def FaultRecord.kind (r : FaultRecord) : FaultKind := r.detail.kind

/-- The record's `code` field (60_exceptions.md R96). -/
def FaultRecord.code (r : FaultRecord) : Nat := r.kind.code

/-- How the body of an instruction ends from state `s`: with the state it made, or with a raise, which drops all the body
wrote (00_scope.md R13; 60_exceptions.md R97). Either way the machine has a next state (log 4). -/
def complete (s : State) : Except FaultDetail State → Host.Outcome State Fault Refusal
  | .ok t => .next t
  | .error d => .next (s.raise d)

end Sys2Proof.Machine
end

