-- ==== Sys2Proof/Machine/Operands.lean ====
section
/-! DEFINITION. The operand forms (30_encoding.md R52): a checked address that is read, a checked address that is written,
a shift count and a branch target. The last two and an unused operand (R53) are used as they stand, unchecked. -/

namespace Sys2Proof.Machine

/-- `CheckAddr(a)`: an address with no cell raises AddressOutOfRange with cause operand, before any access
(20_memory.md R31). -/
def checkAddr (a : Nat) (s : State) : Except FaultDetail Unit :=
  if s.mem.size ≤ a then .error (.addressOutOfRange .operand a) else .ok ()

/-- `CheckAddr(operand); b <- MemRead(operand, 1)`: the word that ADD, SUB, OR and AND read (20_memory.md R31, R32). -/
def readOperand (a : Nat) (s : State) : Except FaultDetail Word :=
  (checkAddr a s).map (fun _ => s.mem.word a)

/-- `CheckAddr(operand); MemWrite(operand, 1, v)`: the write of STORE, the only one there is (20_memory.md R31, R33). -/
def writeOperand (a : Nat) (v : Word) (s : State) : Except FaultDetail State :=
  (checkAddr a s).map (fun _ => s.store a v)

end Sys2Proof.Machine
end

