-- ==== Sys2Proof/Machine/AddSub.lean ====
section
/-! DEFINITION. ADD and SUB (42_add_sub.md). -/

namespace Sys2Proof.Machine

/-- ADD: add the word at the operand address to acc (42_add_sub.md R83). -/
def execAdd (operand : Nat) (s : State) : Host.Outcome State Fault Refusal :=
  complete s do
    let b ← readOperand operand s
    let r ← smAdd s.acc b
    return (s.setAcc r).advance

/-- SUB: subtract the word at the operand address from acc (42_add_sub.md R84). -/
def execSub (operand : Nat) (s : State) : Host.Outcome State Fault Refusal :=
  complete s do
    let b ← readOperand operand s
    let r ← smSub s.acc b
    return (s.setAcc r).advance

end Sys2Proof.Machine
end

