-- ==== Sys2Proof/Machine/Bitwise.lean ====
section
/-! DEFINITION. OR and AND (44_bitwise.md). -/

namespace Sys2Proof.Machine

/-- OR: all 16 bits of acc or the word at the operand address (44_bitwise.md R87). -/
def execOr (operand : Nat) (s : State) : Host.Outcome State Fault Refusal :=
  complete s do
    let b ← readOperand operand s
    return (s.setAcc (smOr s.acc b)).advance

/-- AND: all 16 bits of acc and the word at the operand address (44_bitwise.md R88). -/
def execAnd (operand : Nat) (s : State) : Host.Outcome State Fault Refusal :=
  complete s do
    let b ← readOperand operand s
    return (s.setAcc (smAnd s.acc b)).advance

end Sys2Proof.Machine
end

