-- ==== Sys2Proof/Machine/Flags.lean ====
section
/-! DEFINITION. There are no flags, condition codes or predicates (10_state.md R20). What stands in their place: the two
comparisons of the accumulator with zero that the branches test (40_alu.md R60, R61). -/

namespace Sys2Proof.Machine

/-- `is_negative_nonzero(w)`: a signed zero is never negative (40_alu.md R60). -/
def isNegativeNonzero (w : Word) : Bool := sgn w && decide (mag w ≠ 0)

/-- `ge_zero(w)`, "acc >= 0": -0 counts (40_alu.md R61; 92_eei_decisions.md D20; log 10). -/
def geZero (w : Word) : Bool := !isNegativeNonzero w

/-- `lt_zero(w)`, "acc < 0": -0 does not count (40_alu.md R61; 92_eei_decisions.md D20; log 10). -/
def ltZero (w : Word) : Bool := isNegativeNonzero w

end Sys2Proof.Machine
end

