-- ==== Sys2Proof/Machine/BranchHalt.lean ====
section
/-! DEFINITION. BGE, BLT and END (46_branch_halt.md). A branch target is absolute and unchecked; one at N or above
faults at the next fetch (R91; log 12). -/

namespace Sys2Proof.Machine

/-- BGE: branch if acc >= 0, where -0 counts (46_branch_halt.md R92). -/
def execBge (operand : Nat) (s : State) : Host.Outcome State Fault Refusal :=
  complete s (.ok (if geZero s.acc then s.setPc operand else s.advance))

/-- BLT: branch if acc < 0, where -0 does not count (46_branch_halt.md R93). -/
def execBlt (operand : Nat) (s : State) : Host.Outcome State Fault Refusal :=
  complete s (.ok (if ltZero s.acc then s.setPc operand else s.advance))

/-- END: halt the run; acc, pc and mem stay, and the operand is unused (46_branch_halt.md R94; 90_conflicts.md C2;
log 14). -/
def execEnd (_operand : Nat) (s : State) : Host.Outcome State Fault Refusal :=
  complete s (.ok (s.setStatus .halted))

end Sys2Proof.Machine
end

