-- ==== Sys2Proof/Machine/Shift.lean ====
section
/-! DEFINITION. SHIFTR and SHIFTL (45_shift.md). The operand is the count, never checked against N. -/

namespace Sys2Proof.Machine

/-- SHIFTR: shift acc's magnitude right by the operand (45_shift.md R89). -/
def execShiftr (operand : Nat) (s : State) : Host.Outcome State Fault Refusal :=
  complete s (.ok (s.setAcc (smShr s.acc operand)).advance)

/-- SHIFTL: shift acc's magnitude left by the operand (45_shift.md R90). -/
def execShiftl (operand : Nat) (s : State) : Host.Outcome State Fault Refusal :=
  complete s (.ok (s.setAcc (smShl s.acc operand)).advance)

end Sys2Proof.Machine
end

