-- ==== Sys2Proof/Machine/StoreClear.lean ====
section
/-! DEFINITION. STORE and CLEAR (43_store_clear.md). -/

namespace Sys2Proof.Machine

/-- STORE: write acc's raw bits to the word at the operand address (43_store_clear.md R85). -/
def execStore (operand : Nat) (s : State) : Host.Outcome State Fault Refusal :=
  complete s do
    let t ← writeOperand operand s.acc s
    return t.advance

/-- CLEAR: set acc to +0; the operand is unused (43_store_clear.md R86; 30_encoding.md R53; log 14). -/
def execClear (_operand : Nat) (s : State) : Host.Outcome State Fault Refusal :=
  complete s (.ok (s.setAcc 0x0000).advance)

end Sys2Proof.Machine
end

