-- ==== Sys2Proof/Machine/Dispatch.lean ====
section
/-! DEFINITION. The execute phase: one meaning for each instruction of the registry (41_engine.md R73, R74, R77). -/

namespace Sys2Proof.Machine

/-- The body of the instruction's rule, from the state at the start of the step (41_engine.md R77, execute). -/
def exec (i : Instr) (s : State) : Host.Outcome State Fault Refusal :=
  match i with
  | .add k => Sys2Proof.Machine.execAdd k s
  | .sub k => Sys2Proof.Machine.execSub k s
  | .store k => Sys2Proof.Machine.execStore k s
  | .clear k => Sys2Proof.Machine.execClear k s
  | .or k => Sys2Proof.Machine.execOr k s
  | .and k => Sys2Proof.Machine.execAnd k s
  | .shiftr k => Sys2Proof.Machine.execShiftr k s
  | .shiftl k => Sys2Proof.Machine.execShiftl k s
  | .bge k => Sys2Proof.Machine.execBge k s
  | .blt k => Sys2Proof.Machine.execBlt k s
  | .endRun k => Sys2Proof.Machine.execEnd k s

end Sys2Proof.Machine
end

