-- ==== Sys2Proof/Machine/Engine.lean ====
section
/-! DEFINITION. The Execution Engine and the registry (41_engine.md): one step under an OPCODE_MAP, the trace port, the
typed step result, a bounded run. -/

namespace Sys2Proof.Machine

/-- A descriptor of the registry: an opcode value, a display name and a transition function (41_engine.md R73, R74). -/
structure OpcodeDescriptor where
  opcode : Nat
  displayName : String
  transition : Nat → State → Host.Outcome State Fault Refusal

/-- The descriptor of a mnemonic under an OPCODE_MAP (41_engine.md R73). -/
def descriptor (m : OpcodeMap) (k : Mnemonic) : OpcodeDescriptor :=
  { opcode := m k, displayName := displayName k, transition := fun operand s => exec (Instr.ofMnemonic k operand) s }

/-- The closed registry of exactly 11 descriptors (41_engine.md R73). -/
def registry (m : OpcodeMap) : List OpcodeDescriptor := registryOrder.map (descriptor m)

/-- Did the step that made this state raise a fault? -/
def Status.isFaulted : Status → Bool
  | .faulted _ => true
  | .running => false
  | .halted => false

/-- The record of a completed step of `i` from `s` to `t` (41_engine.md R82). -/
def traceRecord (i : Instr) (s t : State) : TraceRecord :=
  { pc := s.pc, mnemonic := i.mnemonic, operand := i.operand, accBefore := s.acc, accAfter := t.acc }

/-- `emit T`: the trace with one record more (00_scope.md R13). -/
def State.emit (t : State) (r : TraceRecord) : State := { t with trace := t.trace ++ [r] }

/-- The end of a step of `i` from `s` to `t`: a completed instruction other than END emits one record; END and a raise emit
none (41_engine.md R77, R82; 92_eei_decisions.md D11; log 15). -/
def emitCompleted (i : Instr) (s t : State) : State :=
  if i.mnemonic ≠ .endRun ∧ t.status.isFaulted = false then t.emit (traceRecord i s t) else t

/-- The execute phase with the trace port: the body of `i`, then `emit` (41_engine.md R77). -/
def executeTraced (i : Instr) (s : State) : Host.Outcome State Fault Refusal :=
  match exec i s with
  | .next t => .next (emitCompleted i s t)
  | .fault r => .fault r
  | .refused r => .refused r

/-- Fetch, decode and execute from a Running state (41_engine.md R77): the fetch bound, then the opcode, then the body
(60_exceptions.md R99; log 13). -/
def fetchDecodeExecute (m : OpcodeMap) (s : State) : Host.Outcome State Fault Refusal :=
  match s.mem.read? s.pc with
  | none => .next (s.raise (.addressOutOfRange .fetch s.pc))
  | some w =>
    match decodeWith m w with
    | .unknown op => .next (s.raise (.unknownOpcode op))
    | .instr i => executeTraced i s

/-- One step under an OPCODE_MAP: defined when status is Running (41_engine.md R77); a Halted or Faulted core takes no
step (R80; log 7). -/
def stepWith (m : OpcodeMap) (s : State) : Host.Outcome State Fault Refusal :=
  match s.status with
  | .running => fetchDecodeExecute m s
  | .halted => .fault .haltedTakesNoStep
  | .faulted r => .fault (.faultedTakesNoStep r)

/-- The typed result of the single-step operation (41_engine.md R79). -/
inductive StepResult where
  | continued (t : State)
  | halted (t : State)
  | fault (r : FaultRecord)
  deriving DecidableEq, Repr

/-- The typed result that a state after a step stands for (41_engine.md R79). -/
def StepResult.ofState (t : State) : StepResult :=
  match t.status with
  | .running => .continued t
  | .halted => .halted t
  | .faulted r => .fault r

/-- The single-step operation: its typed result, none where the core takes no step (41_engine.md R79, R80). -/
def singleStep (m : OpcodeMap) (s : State) : Option StepResult :=
  match stepWith m s with
  | .next t => some (StepResult.ofState t)
  | .fault _ => none
  | .refused _ => none

/-- The run loop, steps repeated while status is Running (41_engine.md R81), cut off after `n` steps. The bound is the
executor's and no state of the core: a run cut off by it is still Running (60_exceptions.md R102). -/
def runFor (m : OpcodeMap) : Nat → State → State
  | 0, s => s
  | n + 1, s =>
    match stepWith m s with
    | .next t => runFor m n t
    | .fault _ => s
    | .refused _ => s

end Sys2Proof.Machine
end

