-- ==== Sys2Proof/Machine/Fetch.lean ====
section
/-! DEFINITION. Loading one instruction word where the next step fetches it (log 2): the host's load, for one word. -/

namespace Sys2Proof.Machine

/-- Memory with a cell at every address below `n` at least: N grows to `n` where it was less, and the new cells hold
0x0000. It is part of a load from outside (70_reset_and_hazards.md R110); no step of the core does it. -/
def Memory.grow (m : Memory) (n : Nat) : Memory := { m with size := max m.size n }

/-- `s` with the word `w` where the next step fetches it, and status Running. Where memory has no cell at pc, as after
reset with the empty IMAGE, a load of an image as long as the address space stands in (log 2): N becomes MAX_MEM. A pc at
MAX_MEM or above can never be fetched from, so there pc becomes 0. -/
def State.placeAtPc (s : State) (w : Word) : State :=
  let pc := if s.pc < s.mem.size then s.pc else if s.pc < Config.maxMem then s.pc else 0
  let mem := if s.pc < s.mem.size then s.mem else s.mem.grow Config.maxMem
  { s with pc := pc, mem := mem.write pc w, status := .running }

end Sys2Proof.Machine
end

