-- ==== Sys2Proof/Machine/Step.lean ====
section
/-! DEFINITION. The step of the core under the OPCODE_MAP in use (log 1), and the state with a word to run next. -/

namespace Sys2Proof.Machine

/-- One step (41_engine.md R77, R80), under `opcodeMap` (log 1); `stepWith` is the step under any OPCODE_MAP. -/
def step (s : State) : Host.Outcome State Fault Refusal := stepWith opcodeMap s

/-- `s` with an instruction of the opcode table placed where `step` fetches its next instruction (log 2). -/
def State.withFetchWord (s : State) (nbits w : Nat) : State := s.placeAtPc (tableWord nbits w)

end Sys2Proof.Machine
end

