-- ==== Sys2Proof/Machine/Dump.lean ====
section
/-! DEFINITION. The dump view of memory (20_memory.md R46). -/

namespace Sys2Proof.Machine

/-- One entry of the dump: address, raw bits, and both views of the word (20_memory.md R46; 10_state.md R23). The text of
the Integer view is `IntegerView.text`. -/
structure DumpEntry where
  address : Nat
  rawBits : Word
  integerInterpretation : IntegerView
  instructionInterpretation : Decoded
  deriving DecidableEq, Repr

/-- The entry of one word. A word whose opcode is unassigned shows the marker `Unknown(opcode)` (20_memory.md R46;
92_eei_decisions.md D22; log 18). -/
def dumpEntry (m : OpcodeMap) (mem : Memory) (a : Nat) : DumpEntry :=
  { address := a, rawBits := mem.word a, integerInterpretation := integerView (mem.word a),
    instructionInterpretation := decodeWith m (mem.word a) }

/-- The dump: an entry for each address 0 to N-1 in increasing order, with no effect and no fault (20_memory.md R46). -/
def dump (m : OpcodeMap) (mem : Memory) : List DumpEntry := (List.range mem.size).map (dumpEntry m mem)

end Sys2Proof.Machine
end

