-- ==== Sys2Proof/Machine/Reset.lean ====
section
/-! DEFINITION. Reset for every IMAGE and START_PC (70_reset_and_hazards.md R110, R111). -/

namespace Sys2Proof.Machine

/-- The state that reset sets (70_reset_and_hazards.md R110), with N the length of IMAGE (00_scope.md R6; log 16). -/
def State.resetWith (image : List Word) (startPc : Nat) : State :=
  { acc := 0x0000, pc := startPc, mem := Memory.ofImage image, status := .running, trace := [] }

/-- The host's reset: refused, with no state of the core, for an IMAGE of more than 2048 words; every START_PC is admitted
(70_reset_and_hazards.md R111; log 16). -/
def hostReset (image : List Word) (startPc : Nat) : Option State :=
  if image.length ≤ Config.maxMem then some (State.resetWith image startPc) else none

end Sys2Proof.Machine
end

