-- ==== Sys2Proof/Machine/HostPort.lean ====
section
/-! DEFINITION. The host interface: the transactions of 70_reset_and_hazards.md R113 and when each is admitted. The host has
no other move, and none during a run but to take the next steps (20_memory.md R45; 60_exceptions.md R103). -/

namespace Sys2Proof.Machine

/-- Where the host stands: no core yet; a core before its first step; a core in its run; a core whose run has ended
(70_reset_and_hazards.md R113, column "when"). -/
inductive Session where
  | idle
  | fresh (s : State)
  | inRun (s : State)
  | ended (s : State)
  deriving DecidableEq, Repr

/-- The host's transactions (70_reset_and_hazards.md R113). `run` carries the executor's own bound (60_exceptions.md R102). -/
inductive HostRequest where
  | reset (image : List Word) (startPc : Nat)
  | step
  | run (bound : Nat)
  | readFinalState
  | dump
  deriving DecidableEq, Repr

/-- What the core gives back (70_reset_and_hazards.md R113). -/
inductive HostReply where
  /-- not admitted now, or an over-long IMAGE (R111) -/
  | notAdmitted
  /-- A reset, or a run, was served. DESIGN CHOICE (log 21): R113 does not say in what form a run gives its repeated steps
  back, and this reply carries none of them; their records stand in `State.trace`. -/
  | done
  /-- The typed result of a step and its record, if any. DESIGN CHOICE (log 22): a result `continued t` carries the whole
  state, memory included, during a run. -/
  | stepped (result : StepResult) (record : Option TraceRecord)
  | finalState (status : Status) (acc : Word) (pc : Nat) (mem : Memory)
  | dumped (entries : List DumpEntry)
  deriving DecidableEq, Repr

/-- The session after a step or a run has left the core in `t`: the run ends when status is no longer Running
(41_engine.md R81). -/
def Session.after (t : State) : Session :=
  match t.status with
  | .running => .inRun t
  | .halted => .ended t
  | .faulted _ => .ended t

/-- The record a step emitted, if it emitted one (41_engine.md R82; 70_reset_and_hazards.md R113). -/
def emittedRecord (s t : State) : Option TraceRecord := (t.trace.drop s.trace.length).head?

/-- The single-step transaction on a core in state `s` (70_reset_and_hazards.md R113). DESIGN CHOICE (log 22): 20_memory.md
R45 has the host read memory only by the dump or the final state, outside a run, and 41_engine.md R79 with R113 hands it
`Continue(state')` during one; here R79 is followed as it stands, and the reply's state' is the whole State, mem
included. -/
def serveStep (m : OpcodeMap) (was : Session) (s : State) : Session × HostReply :=
  match stepWith m s with
  | .next t => (Session.after t, .stepped (StepResult.ofState t) (emittedRecord s t))
  | .fault _ => (was, .notAdmitted)
  | .refused _ => (was, .notAdmitted)

/-- The reset transaction (70_reset_and_hazards.md R110, R111). -/
def serveReset (was : Session) (image : List Word) (startPc : Nat) : Session × HostReply :=
  match hostReset image startPc with
  | some s => (.fresh s, .done)
  | none => (was, .notAdmitted)

/-- One transaction of the host under an OPCODE_MAP (70_reset_and_hazards.md R113). A reset is the start of a run and is not
admitted during one (91_not_in_source.md N26; log 20). DESIGN CHOICE (log 21): R113 leaves open in what form `run` gives
back "the steps repeated until status is not Running"; here its reply is `done`, with no typed results and no records, the
same for a run that has ended and for one its bound cut off. The session after it tells the two apart (`ended` or `inRun`),
and the records stand in `State.trace`. -/
def Session.serve (m : OpcodeMap) : Session → HostRequest → Session × HostReply
  | .idle, .reset image startPc => serveReset .idle image startPc
  | .fresh s, .reset image startPc => serveReset (.fresh s) image startPc
  | .ended s, .reset image startPc => serveReset (.ended s) image startPc
  | .fresh s, .step => serveStep m (.fresh s) s
  | .inRun s, .step => serveStep m (.inRun s) s
  | .fresh s, .run 0 => (.fresh s, .done)
  | .fresh s, .run (n + 1) => (Session.after (runFor m (n + 1) s), .done)
  | .inRun s, .run n => (Session.after (runFor m n s), .done)
  | .ended s, .readFinalState => (.ended s, .finalState s.status s.acc s.pc s.mem)
  | .fresh s, .dump => (.fresh s, .dumped (dump m s.mem))
  | .ended s, .dump => (.ended s, .dumped (dump m s.mem))
  | was, _ => (was, .notAdmitted)

end Sys2Proof.Machine
end

