-- ==== Sys2Proof/Machine/Image.lean ====
section
/-! DEFINITION. How the host writes the words of an IMAGE: one item for each memory word (30_encoding.md R57; log 19). -/

namespace Sys2Proof.Machine

/-- An item of an image (30_encoding.md R57). -/
inductive ImageItem where
  /-- `M(k)` -/
  | instr (k : Mnemonic) (operand : Nat)
  /-- `CLEAR` or `END` written with no operand: operand 0. DESIGN CHOICE (log 19): the model has this form for every
  mnemonic, the spec for these two only. -/
  | bare (k : Mnemonic)
  /-- `literal(v)` -/
  | literal (v : Int)
  /-- `raw(h)` -/
  | raw (h : Word)
  deriving DecidableEq, Repr

/-- The word of an item under an OPCODE_MAP (30_encoding.md R57, R50; 40_alu.md R64). -/
def ImageItem.word (m : OpcodeMap) : ImageItem → Word
  | .instr k operand => encodeFields (m k) operand
  | .bare k => encodeFields (m k) 0
  | .literal v => fromInt v
  | .raw h => h

/-- The IMAGE of a list of items, in address order (30_encoding.md R57; 00_scope.md R7). -/
def imageOf (m : OpcodeMap) (items : List ImageItem) : List Word := items.map (ImageItem.word m)

end Sys2Proof.Machine
end

