-- ==== Sys2Proof/Safety.lean ====
section
/-! DEFINITION. What claims are stated in: the end of a run (70_reset_and_hazards.md R114), a run that raises no fault, and
the invariant of a state. -/

namespace Sys2Proof.Machine

/-- A run ended successfully: END was executed (70_reset_and_hazards.md R114). -/
def State.endedWell (s : State) : Prop := s.status = .halted

/-- A run ended in failure: a fault was raised. It is no successful end (70_reset_and_hazards.md R114). -/
def State.endedInFault (s : State) : Prop := ∃ r, s.status = .faulted r

/-- Safety: within `n` steps from `s`, no fault is raised (70_reset_and_hazards.md R114, "no fault" as a premise). -/
def SafeFor (m : OpcodeMap) (n : Nat) (s : State) : Prop := ∀ k, k ≤ n → ¬ (runFor m k s).endedInFault

/-- What 60_exceptions.md R97 (a) and (b) leave of the state `s` at the start of a faulting step (decision D8, log 4): acc,
pc, mem and the trace as they were, and the record of R96 with the pc of `s`, the word if one was fetched, and the detail. -/
def State.afterFault (s : State) (word : Option Word) (detail : FaultDetail) : State :=
  { s with status := .faulted { pc := s.pc, word := word, detail := detail } }

/-- The fault record of a Faulted state tells what happened there (60_exceptions.md R95, R96, R99): pc is the faulting
instruction's, word is the word at pc (absent for a fetch fault), and the detail is what the failed check saw. -/
def State.RecordCoherent (m : OpcodeMap) (s : State) : Prop :=
  ∀ r, s.status = .faulted r →
    r.pc = s.pc ∧ r.word = s.mem.read? s.pc ∧
    match r.detail with
    | .addressOutOfRange .fetch a => a = s.pc ∧ s.mem.size ≤ a ∧ r.word = none
    | .unknownOpcode op => (∀ k, m k ≠ op) ∧ ∃ w, r.word = some w ∧ decodeOpcode w = op
    | .addressOutOfRange .operand a =>
        s.mem.size ≤ a ∧ ∃ w i, r.word = some w ∧ decodeWith m w = .instr i ∧ i.addressesMemory = true ∧ i.operand = a
    | .arithmeticOverflow a b =>
        a = s.acc ∧ sgn a = sgn b ∧ 32767 < mag a + mag b ∧
        ∃ w k v, r.word = some w ∧ s.mem.read? k = some v ∧
          ((decodeWith m w = .instr (.add k) ∧ b = v) ∨ (decodeWith m w = .instr (.sub k) ∧ b = v ^^^ 0x8000))

/-- A record of the trace is of an instruction fetched from memory, other than END, with an 11-bit operand
(41_engine.md R82). -/
def TraceRecord.Plausible (size : Nat) (r : TraceRecord) : Prop :=
  r.pc < size ∧ r.operand < 2048 ∧ r.mnemonic ≠ .endRun

/-- The invariant of a state of a run that started at `startPc` under an OPCODE_MAP: memory keeps its canonical form and
N ≤ 2048 (00_scope.md R6; log 3), pc is in the range of 10_state.md R18, and the fault record and the trace are
coherent. -/
structure State.Inv (m : OpcodeMap) (startPc : Nat) (s : State) : Prop where
  memWf : s.mem.wf = true
  pcBound : s.pc ≤ max 2048 startPc
  record : s.RecordCoherent m
  traced : ∀ r ∈ s.trace, r.Plausible s.mem.size

end Sys2Proof.Machine
end

