-- ==== Sys2Proof/Certificates/Slice0/Obligations.lean ====
section
/-! DEFINITION. The statements for the provers. Each docstring names the rule of spec/ it formalises; where a clause rests
on a decision of the spec or on a choice of the model, it says so. -/

open Sys2Proof Sys2Proof.Machine

/-! ## Encoding -/

/-- 30_encoding.md R49: field extraction, total on every word. The fields are the bits 15:11 and 10:0. -/
def Obligations.FieldsOfEveryWord : Prop :=
  ∀ w : Word,
    decodeOpcode w = (w.extractLsb 15 11).toNat ∧ decodeOpcode w = w.toNat / 2048 ∧ decodeOpcode w < 32 ∧
    decodeOperand w = (w.extractLsb 10 0).toNat ∧ decodeOperand w = w.toNat % 2048 ∧ decodeOperand w < 2048

/-- 30_encoding.md R50: the encoder masks the opcode to 5 bits and the operand to 11, for every two natural numbers. -/
def Obligations.EncoderMasksBothFields : Prop :=
  ∀ op operand : Nat, (encodeFields op operand).toNat = (op % 32) * 2048 + operand % 2048

/-- 30_encoding.md R51, both sentences (the second is the spec's own derivation). -/
def Obligations.FieldsRoundTrip : Prop :=
  (∀ op operand : Nat, op < 32 → operand < 2048 →
    decodeOpcode (encodeFields op operand) = op ∧ decodeOperand (encodeFields op operand) = operand) ∧
  ∀ w : Word, encodeFields (decodeOpcode w) (decodeOperand w) = w

/-- Decode and encode agree under every admissible OPCODE_MAP, for every instruction and every operand of the field
(00_scope.md R9; 30_encoding.md R50, R57; 41_engine.md R75). -/
def Obligations.DecodeInvertsEncode : Prop :=
  ∀ m : OpcodeMap, m.Admissible → ∀ i : Instr, i.WellFormed → decodeWith m (encodeWith m i) = .instr i

/-- The other direction: a word that decodes to an instruction is that instruction's one word, and the instruction is
well formed. So no two words share an instruction. -/
def Obligations.EncodeInvertsDecode : Prop :=
  ∀ m : OpcodeMap, m.Admissible → ∀ (w : Word) (i : Instr), decodeWith m w = .instr i → i.WellFormed ∧ encodeWith m i = w

/-- 41_engine.md R75: the opcode is resolved against the registry; with an entry the word is that mnemonic with the operand
field, without one it is Unknown(op), with no fallback. -/
def Obligations.DecodeResolvesTheOpcode : Prop :=
  ∀ m : OpcodeMap, m.Admissible → ∀ w : Word,
    (∀ k, m k = decodeOpcode w → decodeWith m w = .instr (Instr.ofMnemonic k (decodeOperand w))) ∧
    ((∀ k, m k ≠ decodeOpcode w) → decodeWith m w = .unknown (decodeOpcode w))

/-- 30_encoding.md R55: under every admissible OPCODE_MAP 21 opcode values have no registry entry, 9 is one of them, and
the operand bits of a word do not affect whether its opcode is legal. -/
def Obligations.UnassignedOpcodes : Prop :=
  ∀ m : OpcodeMap, m.Admissible →
    ((List.range 32).filter (fun op => (lookupOpcode m op).isNone)).length = 21 ∧
    (∀ w : Word, decodeOpcode w = 9 → decodeWith m w = .unknown 9) ∧
    ∀ v w : Word, decodeOpcode v = decodeOpcode w →
      ((∃ op, decodeWith m v = .unknown op) ↔ ∃ op, decodeWith m w = .unknown op)

/-- Words of the spec's own encodings under REF_MAP (30_encoding.md R54, the spec's choice D1, log 1; the words are those of
the rules R83 to R94 and of 95_test_vectors.md). -/
def Obligations.SampleWordsDecode : Prop :=
  decode 0x0005 = .instr (.add 5) ∧ decode 0x0806 = .instr (.sub 6) ∧ decode 0x1005 = .instr (.store 5) ∧
  decode 0x1800 = .instr (.clear 0) ∧ decode 0x1FFF = .instr (.clear 2047) ∧ decode 0x2007 = .instr (.or 7) ∧
  decode 0x2808 = .instr (.and 8) ∧ decode 0x3001 = .instr (.shiftr 1) ∧ decode 0x3802 = .instr (.shiftl 2) ∧
  decode 0x4007 = .instr (.bge 7) ∧ decode 0x5000 = .instr (.blt 0) ∧ decode 0x5800 = .instr (.endRun 0) ∧
  decode 0x5FFF = .instr (.endRun 2047) ∧ decode 0x4800 = .unknown 9 ∧ decode 0x8001 = .unknown 16

/-- 30_encoding.md R57, the words of an image's items. The bare form of CLEAR and END and the raw form are the spec's
decision D13; that the bare form, with operand 0, exists for every other mnemonic too is the model's own choice (log 19). -/
def Obligations.ImageItemsReadBack : Prop :=
  ∀ m : OpcodeMap, m.Admissible →
    (∀ k operand, operand < 2048 →
      decodeWith m ((ImageItem.instr k operand).word m) = .instr (Instr.ofMnemonic k operand)) ∧
    (∀ k, decodeWith m ((ImageItem.bare k).word m) = .instr (Instr.ofMnemonic k 0)) ∧
    (∀ v : Int, -32767 ≤ v → v ≤ 32767 → toInt ((ImageItem.literal v).word m) = v) ∧
    ∀ h : Word, (ImageItem.raw h).word m = h

/-- 41_engine.md R73: the registry is a closed set of 11 descriptors, each with the opcode value OPCODE_MAP gives, its
display name in capitals (D25, log 19) and the instruction's own transition. -/
def Obligations.RegistryOfElevenDescriptors : Prop :=
  ∀ m : OpcodeMap,
    (registry m).map (fun d => d.displayName) =
      ["ADD", "SUB", "STORE", "CLEAR", "OR", "AND", "SHIFTR", "SHIFTL", "BGE", "BLT", "END"] ∧
    (registry m).map (fun d => d.opcode) = registryOrder.map m ∧ registryOrder.Nodup ∧ (∀ k, k ∈ registryOrder) ∧
    ∀ k operand s, (descriptor m k).transition operand s = exec (Instr.ofMnemonic k operand) s

/-! ## The arithmetic unit -/

/-- 00_scope.md R12: `sm(s, m)` has sign s and magnitude m, every word is the `sm` of its sign and magnitude, and the two
zeros are 0x0000 and 0x8000. -/
def Obligations.SignMagnitudeOfWord : Prop :=
  (∀ w : Word, sgn w = decide (32768 ≤ w.toNat) ∧ mag w = w.toNat % 32768 ∧ sm (sgn w) (mag w) = w) ∧
  (∀ (s : Bool) (n : Nat), n ≤ 32767 → sgn (sm s n) = s ∧ mag (sm s n) = n) ∧
  sm false 0 = 0x0000 ∧ sm true 0 = 0x8000

/-- 40_alu.md R63: the integer value of a word and its range; both zeros have value 0. -/
def Obligations.IntegerValueOfWord : Prop :=
  (∀ w : Word, (sgn w = false → toInt w = mag w) ∧ (sgn w = true → toInt w = -(mag w : Int)) ∧
    -32767 ≤ toInt w ∧ toInt w ≤ 32767) ∧
  (∀ w : Word, toInt w = 0 ↔ w = 0x0000 ∨ w = 0x8000)

/-- 40_alu.md R64: construction masks the magnitude to 15 bits for every integer (D21, log 17), and reads back in the
source's range; 0 gives the non-negative zero. -/
def Obligations.FromIntReadsBack : Prop :=
  (∀ v : Int, sgn (fromInt v) = decide (v < 0) ∧ mag (fromInt v) = v.natAbs % 32768) ∧
  (∀ v : Int, -32767 ≤ v → v ≤ 32767 → toInt (fromInt v) = v) ∧ fromInt 0 = 0x0000

/-- 40_alu.md R65: the four cases of sm_add, each result given by its sign and magnitude, and the overflow. "Same sign"
compares the sign bits (D2, log 9). -/
def Obligations.SmAddCases : Prop :=
  ∀ a b : Word,
    (sgn a = sgn b → mag a + mag b ≤ 32767 →
      ∃ r, smAdd a b = .ok r ∧ sgn r = sgn a ∧ mag r = mag a + mag b) ∧
    (sgn a = sgn b → 32767 < mag a + mag b → smAdd a b = .error (.arithmeticOverflow a b)) ∧
    (sgn a ≠ sgn b → mag b < mag a → ∃ r, smAdd a b = .ok r ∧ sgn r = sgn a ∧ mag r = mag a - mag b) ∧
    (sgn a ≠ sgn b → mag a < mag b → ∃ r, smAdd a b = .ok r ∧ sgn r = sgn b ∧ mag r = mag b - mag a) ∧
    (sgn a ≠ sgn b → mag a = mag b → smAdd a b = .ok 0x0000)

/-- 40_alu.md R65, a corner case the spec derives: sm_add is commutative, also where it overflows. -/
def Obligations.SmAddCommutes : Prop :=
  ∀ a b : Word, (∀ r, smAdd a b = .ok r ↔ smAdd b a = .ok r) ∧
    (smAdd a b = .error (.arithmeticOverflow a b) ↔ smAdd b a = .error (.arithmeticOverflow b a))

/-- 40_alu.md R66: sm_sub adds the word with its sign bit flipped; a - a is +0 for every word; (-0) - (+0) is -0 (the corner
cases are the spec's derivations and rest on D2, log 9). -/
def Obligations.SmSubFlipsTheSign : Prop :=
  (∀ b : Word, sgn (b ^^^ 0x8000) = !sgn b ∧ mag (b ^^^ 0x8000) = mag b) ∧
  (∀ a b : Word, smSub a b = smAdd a (b ^^^ 0x8000)) ∧
  (∀ a : Word, smSub a a = .ok 0x0000) ∧ smSub 0x8000 0x0000 = .ok 0x8000

/-- 40_alu.md R67: ArithmeticOverflow is raised exactly when the operands' sign bits are equal and the magnitudes sum to
more than 32767; sm_sub raises it through sm_add only, with the flipped word; no magnitude wraps on addition; the shifts
never raise. -/
def Obligations.OverflowExactly : Prop :=
  (∀ (a b : Word) (d : FaultDetail), smAdd a b = .error d ↔
    d = .arithmeticOverflow a b ∧ sgn a = sgn b ∧ 32767 < mag a + mag b) ∧
  (∀ (a b : Word) (d : FaultDetail), smSub a b = .error d ↔
    d = .arithmeticOverflow a (b ^^^ 0x8000) ∧ sgn a ≠ sgn b ∧ 32767 < mag a + mag b) ∧
  (∀ a b r : Word, smAdd a b = .ok r → sgn a = sgn b → mag r = mag a + mag b) ∧
  ∀ (n : Nat) (s : State), ∃ t u, exec (.shiftr n) s = .next t ∧ t.status = s.status ∧
    exec (.shiftl n) s = .next u ∧ u.status = s.status

/-- 40_alu.md R72 (a), (b), (c), which the spec derives: sums and differences that do not overflow are the integer ones,
and sm_add overflows exactly when the integer sum leaves -32767..32767. -/
def Obligations.AddSubMatchIntegers : Prop :=
  ∀ a b : Word,
    (∀ r, smAdd a b = .ok r → toInt r = toInt a + toInt b) ∧
    (∀ r, smSub a b = .ok r → toInt r = toInt a - toInt b) ∧
    ((∃ d, smAdd a b = .error d) ↔ 32767 < (toInt a + toInt b).natAbs)

/-- 40_alu.md R62 and R72 (f), which the spec derives: when each operation gives -0. -/
def Obligations.NegativeZeroOnlyWhereNamed : Prop :=
  (∀ a b : Word, smAdd a b = .ok 0x8000 ↔ a = 0x8000 ∧ b = 0x8000) ∧
  (∀ a b : Word, smSub a b = .ok 0x8000 ↔ a = 0x8000 ∧ b = 0x0000) ∧
  (∀ (a : Word) (n : Nat), smShr a n = 0x8000 ↔ sgn a = true ∧ mag a / 2 ^ n = 0) ∧
  (∀ (a : Word) (n : Nat), smShl a n = 0x8000 ↔ sgn a = true ∧ (mag a * 2 ^ n) % 32768 = 0) ∧
  (∀ v : Int, fromInt v = 0x8000 ↔ v < 0 ∧ v.natAbs % 32768 = 0)

/-- 40_alu.md R60, R61: the comparisons with zero are those of the integer value, so a signed zero is never negative
(D20, log 10), and exactly one of them holds. -/
def Obligations.ComparisonsWithZero : Prop :=
  ∀ w : Word,
    (isNegativeNonzero w = true ↔ toInt w < 0) ∧ (geZero w = true ↔ 0 ≤ toInt w) ∧ (ltZero w = true ↔ toInt w < 0) ∧
    (geZero w = true ↔ ¬ ltZero w = true)

/-- 40_alu.md R68: OR and AND work on all 16 bits, the sign bit included. -/
def Obligations.BitwiseOnAllBits : Prop :=
  (∀ (a b : Word) (i : Nat), (smOr a b).getLsbD i = (a.getLsbD i || b.getLsbD i) ∧
    (smAnd a b).getLsbD i = (a.getLsbD i && b.getLsbD i)) ∧
  (∀ a b : Word, sgn (smOr a b) = (sgn a || sgn b) ∧ sgn (smAnd a b) = (sgn a && sgn b)) ∧
  smOr 0x8000 0x0005 = 0x8005 ∧ smAnd 0x8005 0x0003 = 0x0001 ∧ smAnd 0x8004 0x8003 = 0x8000

/-! ## Memory, reset and the views of memory -/

/-- 20_memory.md R33: a write sets the addressed cell and leaves every other cell and N; STORE stores acc's raw bits
through it and is its only user. Memory is in canonical form, which every step keeps (StepKeepsInvariant). -/
def Obligations.MemWriteSetsOneCell : Prop :=
  (∀ (mem : Memory) (a : Nat) (v : Word), mem.wf = true → a < mem.size →
    (mem.write a v).size = mem.size ∧ (mem.write a v).read? a = some v ∧
    ∀ b, b ≠ a → (mem.write a v).read? b = mem.read? b) ∧
  (∀ (k : Nat) (s t : State), k < s.mem.size → exec (.store k) s = .next t → t.mem = s.mem.write k s.acc) ∧
  ∀ (i : Instr) (s t : State), (∀ k, i ≠ .store k) → exec i s = .next t → t.mem = s.mem

/-- Memory's form is canonical (the model's own, log 3): two memories in that form with the same N and the same word at
every address are equal data. -/
def Obligations.EqualReadsEqualMemories : Prop :=
  ∀ p q : Memory, p.wf = true → q.wf = true → p.size = q.size → (∀ a, p.read? a = q.read? a) → p = q

/-- 70_reset_and_hazards.md R110: the state that reset sets, for every IMAGE and START_PC the core admits. -/
def Obligations.ResetSetsEveryElement : Prop :=
  ∀ (image : List Word) (startPc : Nat), image.length ≤ 2048 →
    ∃ s, hostReset image startPc = some s ∧ s.acc = 0x0000 ∧ s.pc = startPc ∧ s.mem.size = image.length ∧
      (∀ a, s.mem.read? a = image[a]?) ∧ s.status = .running ∧ s.trace = []

/-- 70_reset_and_hazards.md R111 (D16, D24, log 16): an over-long IMAGE is refused; after an empty IMAGE, or with START_PC
at N or above, the first step raises AddressOutOfRange with cause fetch. -/
def Obligations.ResetAdmission : Prop :=
  (∀ (image : List Word) (startPc : Nat), 2048 < image.length → hostReset image startPc = none) ∧
  ∀ (m : OpcodeMap) (image : List Word) (startPc : Nat), image.length ≤ startPc →
    stepWith m (State.resetWith image startPc) =
      .next ((State.resetWith image startPc).afterFault none (.addressOutOfRange .fetch startPc))

/-- The invariant holds after the reset with the model's own parameters IMAGE = [] and START_PC = 0 (log 2). -/
def Obligations.ResetMeetsInvariant : Prop :=
  State.reset = State.resetWith [] 0 ∧ ∀ m : OpcodeMap, State.reset.Inv m 0

/-- 20_memory.md R46: the dump has one entry for each address 0 to N-1 in order, with both views of its word; an unassigned
opcode shows as the marker (D22, log 18). -/
def Obligations.DumpShowsEveryCell : Prop :=
  ∀ (m : OpcodeMap) (mem : Memory),
    (dump m mem).length = mem.size ∧
    ∀ (a : Nat) (w : Word), mem.read? a = some w →
      (dump m mem)[a]? = some
        { address := a, rawBits := w
          integerInterpretation := { sign := sgn w, magnitude := mag w }
          instructionInterpretation := decodeWith m w }

/-! ## Each instruction's own effect -/

/-- 42_add_sub.md R83, the completing case: acc becomes the sum and pc advances, nothing else changes. The result is
sm_add's, whose integer value is the sum (the sign of a zero result rests on D2, log 9). -/
def Obligations.AddCompletes : Prop :=
  ∀ (s : State) (k : Nat) (b : Word), s.mem.read? k = some b →
    (sgn s.acc = sgn b → mag s.acc + mag b ≤ 32767) →
    ∃ r, smAdd s.acc b = .ok r ∧ toInt r = toInt s.acc + toInt b ∧
      exec (.add k) s = .next { s with acc := r, pc := s.pc + 1 }

/-- 42_add_sub.md R84, the completing case (the sign of a zero result rests on D2, log 9). -/
def Obligations.SubCompletes : Prop :=
  ∀ (s : State) (k : Nat) (b : Word), s.mem.read? k = some b →
    (sgn s.acc ≠ sgn b → mag s.acc + mag b ≤ 32767) →
    ∃ r, smAdd s.acc (b ^^^ 0x8000) = .ok r ∧ toInt r = toInt s.acc - toInt b ∧
      exec (.sub k) s = .next { s with acc := r, pc := s.pc + 1 }

/-- 43_store_clear.md R85, the completing case: the addressed cell holds acc's raw bits, every other cell and acc stay. -/
def Obligations.StoreCompletes : Prop :=
  ∀ (s : State) (k : Nat), s.mem.wf = true → k < s.mem.size →
    ∃ t, exec (.store k) s = .next t ∧ t.acc = s.acc ∧ t.pc = s.pc + 1 ∧ t.status = s.status ∧ t.trace = s.trace ∧
      t.mem.size = s.mem.size ∧ t.mem.read? k = some s.acc ∧ ∀ a, a ≠ k → t.mem.read? a = s.mem.read? a

/-- 43_store_clear.md R86: acc becomes +0 whatever it held and whatever the operand is; memory is not accessed. -/
def Obligations.ClearCompletes : Prop :=
  ∀ (s : State) (k : Nat), exec (.clear k) s = .next { s with acc := 0x0000, pc := s.pc + 1 }

/-- 44_bitwise.md R87 and R88, the completing cases: all 16 bits of acc and the word. -/
def Obligations.OrAndComplete : Prop :=
  ∀ (s : State) (k : Nat) (b : Word), s.mem.read? k = some b →
    exec (.or k) s = .next { s with acc := s.acc ||| b, pc := s.pc + 1 } ∧
    exec (.and k) s = .next { s with acc := s.acc &&& b, pc := s.pc + 1 }

/-- 45_shift.md R89: the magnitude is shifted right and the sign kept, for every count, with no bound check. -/
def Obligations.ShiftrCompletes : Prop :=
  ∀ (s : State) (n : Nat), ∃ r : Word,
    exec (.shiftr n) s = .next { s with acc := r, pc := s.pc + 1 } ∧
    sgn r = sgn s.acc ∧ mag r = mag s.acc / 2 ^ n ∧ (n = 0 → r = s.acc) ∧ (15 ≤ n → mag r = 0)

/-- 45_shift.md R90: the magnitude is shifted left modulo 2^15 and the sign kept, for every count, never a fault. -/
def Obligations.ShiftlCompletes : Prop :=
  ∀ (s : State) (n : Nat), ∃ r : Word,
    exec (.shiftl n) s = .next { s with acc := r, pc := s.pc + 1 } ∧
    sgn r = sgn s.acc ∧ mag r = (mag s.acc * 2 ^ n) % 32768 ∧ (n = 0 → r = s.acc) ∧ (15 ≤ n → mag r = 0)

/-- 46_branch_halt.md R92 and R93: BGE branches exactly when acc's value is at least 0 and BLT exactly when it is below
(so -0 counts as 0: D20, log 10); only pc changes. -/
def Obligations.BranchesComplete : Prop :=
  ∀ (s : State) (k : Nat),
    exec (.bge k) s = .next { s with pc := if 0 ≤ toInt s.acc then k else s.pc + 1 } ∧
    exec (.blt k) s = .next { s with pc := if toInt s.acc < 0 then k else s.pc + 1 }

/-- 46_branch_halt.md R94: END sets status to Halted and changes nothing else, whatever its operand; its step emits no
record, and no step is taken after it. -/
def Obligations.EndCompletes : Prop :=
  (∀ (s : State) (k : Nat), exec (.endRun k) s = .next { s with status := .halted }) ∧
  ∀ (m : OpcodeMap) (s : State) (w : Word) (k : Nat), s.status = .running → s.mem.read? s.pc = some w →
    decodeWith m w = .instr (.endRun k) →
    stepWith m s = .next { s with status := .halted } ∧ ∀ u, stepWith m { s with status := .halted } ≠ .next u

/-! ## Faults -/

/-- 20_memory.md R31: ADD, SUB, STORE, OR and AND with an operand at N or above raise AddressOutOfRange with cause operand,
before any access. What the raise leaves is R97's (a) and (b), the spec's decision D8 (logs 4, 5). -/
def Obligations.OperandBeyondMemoryFaults : Prop :=
  ∀ (i : Instr) (s : State), i.addressesMemory = true → s.mem.size ≤ i.operand →
    exec i s = .next (s.afterFault (s.mem.read? s.pc) (.addressOutOfRange .operand i.operand))

/-- 42_add_sub.md R83 and R84, the overflowing cases: acc, pc and mem are unchanged (D8, logs 4, 5), and for SUB the
record's b is the flipped word (40_alu.md R66). -/
def Obligations.AddSubOverflowFaults : Prop :=
  ∀ (s : State) (k : Nat) (b : Word), s.mem.read? k = some b → 32767 < mag s.acc + mag b →
    (sgn s.acc = sgn b → exec (.add k) s = .next (s.afterFault (s.mem.read? s.pc) (.arithmeticOverflow s.acc b))) ∧
    (sgn s.acc ≠ sgn b →
      exec (.sub k) s = .next (s.afterFault (s.mem.read? s.pc) (.arithmeticOverflow s.acc (b ^^^ 0x8000))))

/-- 60_exceptions.md R95: three kinds with the codes 1, 2 and 3 (the numbers are the spec's own, D9, log 8). -/
def Obligations.FaultCodes : Prop :=
  ∀ r : FaultRecord,
    (r.code = 1 ↔ ∃ op, r.detail = .unknownOpcode op) ∧ (r.code = 2 ↔ ∃ a b, r.detail = .arithmeticOverflow a b) ∧
    (r.code = 3 ↔ ∃ c a, r.detail = .addressOutOfRange c a) ∧ (r.code = 1 ∨ r.code = 2 ∨ r.code = 3)

/-- 60_exceptions.md R99: the order of the checks of a step (the place of the fetch check is D5, D7, logs 12, 13): the fetch
bound; then the opcode, whatever the operand; then the operand bound; then the addition. -/
def Obligations.ChecksInOrder : Prop :=
  ∀ (m : OpcodeMap) (s : State), s.status = .running →
    (s.mem.size ≤ s.pc → stepWith m s = .next (s.afterFault none (.addressOutOfRange .fetch s.pc))) ∧
    ∀ w, s.mem.read? s.pc = some w →
      (∀ op, decodeWith m w = .unknown op → stepWith m s = .next (s.afterFault (some w) (.unknownOpcode op))) ∧
      (∀ i, decodeWith m w = .instr i → i.addressesMemory = true → s.mem.size ≤ i.operand →
        stepWith m s = .next (s.afterFault (some w) (.addressOutOfRange .operand i.operand))) ∧
      (∀ k b, decodeWith m w = .instr (.add k) → s.mem.read? k = some b → sgn s.acc = sgn b →
        32767 < mag s.acc + mag b → stepWith m s = .next (s.afterFault (some w) (.arithmeticOverflow s.acc b))) ∧
      (∀ k b, decodeWith m w = .instr (.sub k) → s.mem.read? k = some b → sgn s.acc ≠ sgn b →
        32767 < mag s.acc + mag b →
        stepWith m s = .next (s.afterFault (some w) (.arithmeticOverflow s.acc (b ^^^ 0x8000))))

/-- 60_exceptions.md R97, R98 (the post-fault state is D8, log 4): a step that raises changes nothing but status, names its
own pc, emits no record, and no step follows. -/
def Obligations.FaultsArePrecise : Prop :=
  ∀ (m : OpcodeMap) (s t : State) (r : FaultRecord), s.status = .running → stepWith m s = .next t →
    t.status = .faulted r →
    t = { s with status := .faulted r } ∧ r.pc = s.pc ∧ r.word = s.mem.read? s.pc ∧ ∀ u, stepWith m t ≠ .next u

/-- 46_branch_halt.md R91 (D6, log 12): a branch taken to a target at N or above completes, and the next fetch raises. -/
def Obligations.BranchBeyondMemoryFaultsAtFetch : Prop :=
  ∀ (m : OpcodeMap) (s : State) (k : Nat), s.status = .running → s.mem.size ≤ k →
    ∃ i ∈ [Instr.bge k, Instr.blt k], ∃ t, exec i s = .next t ∧ t.pc = k ∧ t.status = .running ∧
      stepWith m t = .next (t.afterFault none (.addressOutOfRange .fetch k))

/-! ## The step and the whole machine -/

/-- 41_engine.md R77: when the word at pc decodes to `i`, the step is `exec i` with the trace port around it: a record of a
completed instruction other than END. `step` is that step under the map in use (log 1). -/
def Obligations.StepRunsDecodedInstruction : Prop :=
  (∀ (m : OpcodeMap) (s : State) (w : Word) (i : Instr), s.status = .running → s.mem.read? s.pc = some w →
    decodeWith m w = .instr i →
    stepWith m s = match exec i s with
      | .next t =>
        .next (if i.mnemonic ≠ .endRun ∧ t.status.isFaulted = false then
          { t with trace := t.trace ++ [{ pc := s.pc, mnemonic := i.mnemonic, operand := i.operand,
                                          accBefore := s.acc, accAfter := t.acc }] }
          else t)
      | .fault r => .fault r
      | .refused r => .refused r) ∧
  ∀ s : State, step s = stepWith opcodeMap s

/-- 41_engine.md R77, R80 (D17, log 7): a Running core always has a next state; a Halted or Faulted one takes no step. -/
def Obligations.StepsExactlyWhenRunning : Prop :=
  ∀ (m : OpcodeMap) (s : State), (∃ t, stepWith m s = .next t) ↔ s.status = .running

/-- A word placed where the next step fetches it is the instruction that step runs (the model's own load, log 2). -/
def Obligations.PlacedWordRunsNext : Prop :=
  ∀ (s : State) (w : Nat) (i : Instr), s.mem.wf = true → decodeTableWord 16 w = some i →
    (s.withFetchWord 16 w).mem.wf = true ∧ (s.withFetchWord 16 w).acc = s.acc ∧
    (s.withFetchWord 16 w).trace = s.trace ∧
    ∃ t, exec i (s.withFetchWord 16 w) = .next t ∧
      step (s.withFetchWord 16 w) = .next (emitCompleted i (s.withFetchWord 16 w) t)

/-- The frame of ADD, SUB, CLEAR, OR, AND, SHIFTR and SHIFTL: acc and pc may change; every word of memory, N and the trace
stay; status stays, or it is a fault's and then acc and pc stay too (10_state.md R17, R20; 60_exceptions.md R97, D8). -/
def Obligations.RegisterInstructionsFrame : Prop :=
  ∀ (i : Instr) (s t : State), i.mnemonic ∈ [Mnemonic.add, .sub, .clear, .or, .and, .shiftr, .shiftl] →
    exec i s = .next t →
    t.mem.size = s.mem.size ∧ (∀ a, t.mem.read? a = s.mem.read? a) ∧ t.trace = s.trace ∧
    (t.status = s.status ∨ ((∃ r, t.status = .faulted r) ∧ t.acc = s.acc ∧ t.pc = s.pc))

/-- The frame of BGE, BLT and END: acc, every word of memory, N and the trace stay; the branches leave status, END leaves
pc and halts (46_branch_halt.md R92, R93, R94). -/
def Obligations.BranchesAndEndFrame : Prop :=
  ∀ (i : Instr) (s t : State), i.mnemonic ∈ [Mnemonic.bge, .blt, .endRun] → exec i s = .next t →
    t.acc = s.acc ∧ t.mem.size = s.mem.size ∧ (∀ a, t.mem.read? a = s.mem.read? a) ∧ t.trace = s.trace ∧
    (i.mnemonic ≠ .endRun → t.status = s.status) ∧ (i.mnemonic = .endRun → t.status = .halted ∧ t.pc = s.pc)

/-- The frame of STORE: the address stored to is its operand; every other address reads as before, and so do acc, N and
the trace; on a fault every address reads as before (43_store_clear.md R85; 60_exceptions.md R97, D8). -/
def Obligations.StoreFrame : Prop :=
  ∀ (k : Nat) (s t : State), s.mem.wf = true → exec (.store k) s = .next t →
    t.acc = s.acc ∧ t.mem.size = s.mem.size ∧ t.trace = s.trace ∧
    (∀ a, a ≠ (Instr.store k).operand → t.mem.read? a = s.mem.read? a) ∧
    ((t.status = s.status ∧ k < s.mem.size) ∨
      ((∃ r, t.status = .faulted r) ∧ s.mem.size ≤ k ∧ t.pc = s.pc ∧ ∀ a, t.mem.read? a = s.mem.read? a))

/-- 10_state.md R22: memory is mutated only by STORE during execution, no entry is added or removed during a run, and its
reset value is the IMAGE. -/
def Obligations.MemoryMutatedOnlyByStore : Prop :=
  (∀ (m : OpcodeMap) (s t : State), s.mem.wf = true → stepWith m s = .next t →
    t.mem.size = s.mem.size ∧
    ∀ a, t.mem.read? a ≠ s.mem.read? a →
      t.mem.read? a = some s.acc ∧ ∃ w, s.mem.read? s.pc = some w ∧ decodeWith m w = .instr (.store a)) ∧
  ∀ (image : List Word) (startPc i : Nat) (h : i < image.length),
    (State.resetWith image startPc).mem.read? i = some image[i]

/-- 10_state.md R17: acc changes only in a step of ADD, SUB, CLEAR, OR, AND, SHIFTR or SHIFTL. -/
def Obligations.AccWrittenOnlyBySeven : Prop :=
  ∀ (m : OpcodeMap) (s t : State), stepWith m s = .next t → t.acc ≠ s.acc →
    ∃ w i, s.mem.read? s.pc = some w ∧ decodeWith m w = .instr i ∧
      i.mnemonic ∈ [Mnemonic.add, .sub, .clear, .or, .and, .shiftr, .shiftl]

/-- 10_state.md R18 (pc is a natural number that never wraps: D4, log 12): how a step sets pc. -/
def Obligations.PcOfTheNextStep : Prop :=
  ∀ (m : OpcodeMap) (s t : State), stepWith m s = .next t →
    (t.status ≠ .running → t.pc = s.pc) ∧
    (t.status = .running → ∃ w i, s.mem.read? s.pc = some w ∧ decodeWith m w = .instr i ∧ i.mnemonic ≠ .endRun ∧
      t.pc = (if (i.mnemonic = .bge ∧ 0 ≤ toInt s.acc) ∨ (i.mnemonic = .blt ∧ toInt s.acc < 0) then decodeOperand w
        else s.pc + 1))

/-- 46_branch_halt.md R94 and 60_exceptions.md R109: a step halts exactly when the word at pc is an END. -/
def Obligations.HaltsExactlyAtEnd : Prop :=
  ∀ (m : OpcodeMap) (s t : State), stepWith m s = .next t →
    (t.status = .halted ↔ ∃ w k, s.mem.read? s.pc = some w ∧ decodeWith m w = .instr (.endRun k))

/-- 41_engine.md R82 (no record for END and for a fault: D11, log 15): a step that leaves the core Running emits exactly one
record, of the instruction at pc; any other step emits none. -/
def Obligations.OneRecordPerCompletedStep : Prop :=
  ∀ (m : OpcodeMap) (s t : State), stepWith m s = .next t →
    (t.status ≠ .running → t.trace = s.trace) ∧
    (t.status = .running → ∃ w i, s.mem.read? s.pc = some w ∧ decodeWith m w = .instr i ∧
      t.trace = s.trace ++ [{ pc := s.pc, mnemonic := i.mnemonic, operand := decodeOperand w,
                              accBefore := s.acc, accAfter := t.acc }])

/-- 10_state.md R26: the trace is an output that starts empty and affects no step: two runs that differ only in the trace so
far agree in everything else and emit the same records. -/
def Obligations.TraceAffectsNothing : Prop :=
  (∀ (image : List Word) (startPc : Nat), (State.resetWith image startPc).trace = []) ∧
  ∀ (m : OpcodeMap) (n : Nat) (s : State) (other : List TraceRecord), ∃ emitted,
    (runFor m n s).trace = s.trace ++ emitted ∧
    runFor m n { s with trace := other } = { runFor m n s with trace := other ++ emitted }

/-- 20_memory.md R43, which the spec derives: after a STORE to `k`, a later fetch from `k` with no STORE between sees the
stored word: the step runs what acc's bits decode to, or raises UnknownOpcode. -/
def Obligations.StoredWordIsFetched : Prop :=
  ∀ (m : OpcodeMap) (s t u : State) (k : Nat), s.mem.wf = true → k < s.mem.size → exec (.store k) s = .next t →
    u.mem = t.mem → u.pc = k → u.status = .running →
    (∀ i, decodeWith m s.acc = .instr i → stepWith m u = executeTraced i u) ∧
    (∀ op, decodeWith m s.acc = .unknown op → stepWith m u = .next (u.afterFault (some s.acc) (.unknownOpcode op)))

/-- 41_engine.md R81: a run repeats steps while status is Running; its bound is only a cut (60_exceptions.md R102, D18): a
run can be resumed, and a terminal state stays. -/
def Obligations.RunsRepeatSteps : Prop :=
  ∀ (m : OpcodeMap) (s : State),
    (∀ j k, runFor m (j + k) s = runFor m k (runFor m j s)) ∧
    (∀ n, s.status ≠ .running → runFor m n s = s) ∧
    ∀ n t, stepWith m (runFor m n s) = .next t → runFor m (n + 1) s = t

/-- 20_memory.md R45 and 60_exceptions.md R103 (the transactions are D23, log 20): during a run every request of the host
leaves the core as it is or as further steps of its own make it. -/
def Obligations.HostHasNoMoveInRun : Prop :=
  ∀ (m : OpcodeMap) (s : State) (q : HostRequest), s.status = .running →
    ∃ n, (Session.serve m (.inRun s) q).1 = Session.after (runFor m n s)

/-- The headline invariant: every step, under every OPCODE_MAP, keeps memory canonical and within 2048 words, pc within the
range of 10_state.md R18, the fault record true of the state it stands in (60_exceptions.md R96), and the trace
plausible. -/
def Obligations.StepKeepsInvariant : Prop :=
  ∀ (m : OpcodeMap) (startPc : Nat) (s t : State), s.Inv m startPc → stepWith m s = .next t → t.Inv m startPc

/-- Every state of every run the core admits meets the invariant, from any IMAGE and START_PC. -/
def Obligations.RunsKeepInvariant : Prop :=
  ∀ (m : OpcodeMap) (image : List Word) (startPc : Nat) (s : State) (n : Nat),
    hostReset image startPc = some s → (runFor m n s).Inv m startPc
end

