-- ==== Sys2Proof/Laws/Alu.lean ====
section
/-! SUPPORT. The sign, the magnitude and `sm` of a word, as arithmetic on `toNat` (00_scope.md R12). -/

namespace Sys2Proof.Machine

theorem mag_eq (w : Word) : mag w = w.toNat % 32768 := by
  simp [mag, BitVec.extractLsb, BitVec.extractLsb']

theorem sgn_eq (w : Word) : sgn w = decide (32768 ≤ w.toNat) := by
  have h := w.isLt
  rw [sgn, ← BitVec.testBit_toNat, Nat.testBit_eq_decide_div_mod_eq]
  by_cases hw : 32768 ≤ w.toNat <;> simp [hw] <;> omega

theorem mag_le (w : Word) : mag w ≤ 32767 := by
  rw [mag_eq]
  omega

/-- A word's number from its sign and magnitude. -/
theorem toNat_eq (w : Word) : w.toNat = (sgn w).toNat * 32768 + mag w := by
  have h := w.isLt
  rw [sgn_eq, mag_eq]
  by_cases hw : 32768 ≤ w.toNat <;> simp [hw] <;> omega

theorem sm_toNat (s : Bool) {n : Nat} (hn : n ≤ 32767) : (sm s n).toNat = s.toNat * 32768 + n := by
  have hor : s.toNat <<< 15 ||| n = s.toNat * 32768 + n := by
    rw [← Nat.shiftLeft_add_eq_or_of_lt (by omega : n < 2 ^ 15), Nat.shiftLeft_eq]
  have hs := Bool.toNat_le s
  rw [sm, hor, BitVec.toNat_ofNat]
  omega

theorem sgn_sm (s : Bool) {n : Nat} (hn : n ≤ 32767) : sgn (sm s n) = s := by
  rw [sgn_eq, sm_toNat s hn]
  cases s <;> (simp; try omega)

theorem mag_sm (s : Bool) {n : Nat} (hn : n ≤ 32767) : mag (sm s n) = n := by
  rw [mag_eq, sm_toNat s hn]
  omega

/-- A word is determined by its sign and magnitude. -/
theorem word_ext {v w : Word} (hs : sgn v = sgn w) (hm : mag v = mag w) : v = w := by
  apply BitVec.eq_of_toNat_eq
  rw [toNat_eq, toNat_eq w, hs, hm]

/-- The sign flip of SUB (40_alu.md R66) as arithmetic. -/
theorem toNat_flip (w : Word) : (w ^^^ 0x8000#16).toNat = (!sgn w).toNat * 32768 + mag w := by
  have h : w ^^^ 0x8000#16 = sm (!sgn w) (mag w) := by
    apply BitVec.eq_of_getLsbD_eq
    intro i hi
    have hs : (0x8000#16 : Word).getLsbD i = decide (i = 15) := by
      revert i
      decide
    have hsm : (sm (!sgn w) (mag w)).getLsbD i = if i = 15 then !sgn w else (mag w).testBit i := by
      rw [← BitVec.testBit_toNat, sm_toNat _ (mag_le w)]
      have hm := mag_le w
      split
      · subst i
        rw [Nat.testBit_eq_decide_div_mod_eq]
        cases sgn w <;> simp <;> omega
      · have hlt : i < 15 := by omega
        rw [Nat.mul_comm, show (32768 : Nat) = 2 ^ 15 from rfl, Nat.testBit_two_pow_mul_add _ (by omega : mag w < 2 ^ 15),
          if_pos hlt]
    rw [BitVec.getLsbD_xor, hs, hsm]
    split
    · subst i
      simp [sgn]
    · have hlt : i < 15 := by omega
      rw [mag_eq, show (32768 : Nat) = 2 ^ 15 from rfl, Nat.testBit_mod_two_pow]
      simp [hlt, show i ≠ 15 by omega, ← BitVec.testBit_toNat]
  rw [h, sm_toNat _ (mag_le w)]

/-- The integer value of a word, case by case (40_alu.md R63). -/
theorem toInt_of_sgn {w : Word} : toInt w = if sgn w then -(mag w : Int) else (mag w : Int) := rfl

end Sys2Proof.Machine
end

