-- ==== Sys2Proof/Laws/Decode.lean ====
section
/-! SUPPORT. The decoder's functions, each said once: the fields of a word and of an encoded word, and the registry lookup. -/

namespace Sys2Proof

@[simp] theorem Instr.mnemonic_ofMnemonic (k : Mnemonic) (n : Nat) : (Instr.ofMnemonic k n).mnemonic = k := by
  cases k <;> rfl

@[simp] theorem Instr.operand_ofMnemonic (k : Mnemonic) (n : Nat) : (Instr.ofMnemonic k n).operand = n := by
  cases k <;> rfl

theorem mem_registryOrder (k : Mnemonic) : k ∈ registryOrder := by
  cases k <;> decide

/-- REF_MAP meets the constraints of 00_scope.md R9. -/
theorem refMap_admissible : refMap.Admissible where
  lt_32 := by intro k; cases k <;> decide
  injective := by intro j k; cases j <;> cases k <;> decide
  ne_9 := by intro k; cases k <;> decide

theorem opcodeMap_admissible : opcodeMap.Admissible := refMap_admissible

theorem lookupOpcode_eq_none_iff {m : OpcodeMap} {op : Nat} : lookupOpcode m op = none ↔ ∀ k, m k ≠ op := by
  simp [lookupOpcode, List.find?_eq_none, mem_registryOrder]

theorem lookupOpcode_eq_some {m : OpcodeMap} {op : Nat} {k : Mnemonic} (h : lookupOpcode m op = some k) : m k = op := by
  have := List.find?_some h
  simpa using this

/-- An injective map finds the one mnemonic with the opcode (41_engine.md R75). -/
theorem lookupOpcode_eq_some_iff {m : OpcodeMap} (hm : m.Admissible) {op : Nat} {k : Mnemonic} :
    lookupOpcode m op = some k ↔ m k = op := by
  refine ⟨lookupOpcode_eq_some, fun h => ?_⟩
  cases hl : lookupOpcode m op with
  | none => exact absurd h (lookupOpcode_eq_none_iff.mp hl k)
  | some j => rw [hm.injective j k ((lookupOpcode_eq_some hl).trans h.symm)]

/-- When a word decodes to an instruction, under any map. -/
theorem decodeWith_eq_instr_iff {m : OpcodeMap} {w : Word} {i : Instr} :
    decodeWith m w = .instr i ↔
      ∃ k, lookupOpcode m (decodeOpcode w) = some k ∧ i = Instr.ofMnemonic k (decodeOperand w) := by
  unfold decodeWith
  cases lookupOpcode m (decodeOpcode w) with
  | some k => simp [eq_comm]
  | none => simp

/-- When a word decodes to the marker, under any map. -/
theorem decodeWith_eq_unknown_iff {m : OpcodeMap} {w : Word} {op : Nat} :
    decodeWith m w = .unknown op ↔ op = decodeOpcode w ∧ ∀ k, m k ≠ op := by
  unfold decodeWith
  split
  · rename_i k h
    have := lookupOpcode_eq_some h
    simp only [reduceCtorEq, false_iff, not_and]
    rintro rfl hn
    exact hn k this
  · rename_i h
    have := lookupOpcode_eq_none_iff.mp h
    simp only [Decoded.unknown.injEq]
    exact ⟨fun e => ⟨e.symm, e ▸ this⟩, fun e => e.1.symm⟩

theorem decodeOpcode_eq (w : Word) : decodeOpcode w = w.toNat / 2048 := by
  simp [decodeOpcode, Nat.shiftRight_eq_div_pow]

theorem decodeOperand_eq (w : Word) : decodeOperand w = w.toNat % 2048 :=
  Nat.and_two_pow_sub_one_eq_mod w.toNat 11

theorem decodeOperand_lt (w : Word) : decodeOperand w < 2048 := by
  rw [decodeOperand_eq]
  exact Nat.mod_lt _ (by decide)

/-- A decoded instruction's operand is the operand field of its word (30_encoding.md R52). -/
theorem operand_of_decodeWith {m : OpcodeMap} {w : Word} {i : Instr} (h : decodeWith m w = .instr i) :
    i.operand = decodeOperand w := by
  obtain ⟨k, -, rfl⟩ := decodeWith_eq_instr_iff.mp h
  exact Instr.operand_ofMnemonic k _

end Sys2Proof
end

