-- ==== Sys2Proof/Laws/State.lean ====
section
/-! SUPPORT. One lemma for each field of State under each update of it, so that no proof unfolds a record update. -/

namespace Sys2Proof.Machine

@[simp] theorem State.setAcc_acc (s : State) (v : Word) : (s.setAcc v).acc = v := rfl
@[simp] theorem State.setAcc_pc (s : State) (v : Word) : (s.setAcc v).pc = s.pc := rfl
@[simp] theorem State.setAcc_mem (s : State) (v : Word) : (s.setAcc v).mem = s.mem := rfl
@[simp] theorem State.setAcc_status (s : State) (v : Word) : (s.setAcc v).status = s.status := rfl
@[simp] theorem State.setAcc_trace (s : State) (v : Word) : (s.setAcc v).trace = s.trace := rfl

@[simp] theorem State.setPc_acc (s : State) (target : Nat) : (s.setPc target).acc = s.acc := rfl
@[simp] theorem State.setPc_pc (s : State) (target : Nat) : (s.setPc target).pc = target := rfl
@[simp] theorem State.setPc_mem (s : State) (target : Nat) : (s.setPc target).mem = s.mem := rfl
@[simp] theorem State.setPc_status (s : State) (target : Nat) : (s.setPc target).status = s.status := rfl
@[simp] theorem State.setPc_trace (s : State) (target : Nat) : (s.setPc target).trace = s.trace := rfl

@[simp] theorem State.advance_acc (s : State) : (s.advance).acc = s.acc := rfl
@[simp] theorem State.advance_pc (s : State) : (s.advance).pc = s.pc + 1 := rfl
@[simp] theorem State.advance_mem (s : State) : (s.advance).mem = s.mem := rfl
@[simp] theorem State.advance_status (s : State) : (s.advance).status = s.status := rfl
@[simp] theorem State.advance_trace (s : State) : (s.advance).trace = s.trace := rfl

@[simp] theorem State.store_acc (s : State) (a : Nat) (v : Word) : (s.store a v).acc = s.acc := rfl
@[simp] theorem State.store_pc (s : State) (a : Nat) (v : Word) : (s.store a v).pc = s.pc := rfl
@[simp] theorem State.store_mem (s : State) (a : Nat) (v : Word) : (s.store a v).mem = s.mem.write a v := rfl
@[simp] theorem State.store_status (s : State) (a : Nat) (v : Word) : (s.store a v).status = s.status := rfl
@[simp] theorem State.store_trace (s : State) (a : Nat) (v : Word) : (s.store a v).trace = s.trace := rfl

@[simp] theorem State.setStatus_acc (s : State) (st : Status) : (s.setStatus st).acc = s.acc := rfl
@[simp] theorem State.setStatus_pc (s : State) (st : Status) : (s.setStatus st).pc = s.pc := rfl
@[simp] theorem State.setStatus_mem (s : State) (st : Status) : (s.setStatus st).mem = s.mem := rfl
@[simp] theorem State.setStatus_status (s : State) (st : Status) : (s.setStatus st).status = st := rfl
@[simp] theorem State.setStatus_trace (s : State) (st : Status) : (s.setStatus st).trace = s.trace := rfl

@[simp] theorem State.raise_acc (s : State) (d : FaultDetail) : (s.raise d).acc = s.acc := rfl
@[simp] theorem State.raise_pc (s : State) (d : FaultDetail) : (s.raise d).pc = s.pc := rfl
@[simp] theorem State.raise_mem (s : State) (d : FaultDetail) : (s.raise d).mem = s.mem := rfl
@[simp] theorem State.raise_status (s : State) (d : FaultDetail) : (s.raise d).status = .faulted { pc := s.pc, word := s.mem.read? s.pc, detail := d } := rfl
@[simp] theorem State.raise_trace (s : State) (d : FaultDetail) : (s.raise d).trace = s.trace := rfl

@[simp] theorem State.emit_acc (s : State) (r : TraceRecord) : (s.emit r).acc = s.acc := rfl
@[simp] theorem State.emit_pc (s : State) (r : TraceRecord) : (s.emit r).pc = s.pc := rfl
@[simp] theorem State.emit_mem (s : State) (r : TraceRecord) : (s.emit r).mem = s.mem := rfl
@[simp] theorem State.emit_status (s : State) (r : TraceRecord) : (s.emit r).status = s.status := rfl
@[simp] theorem State.emit_trace (s : State) (r : TraceRecord) : (s.emit r).trace = s.trace ++ [r] := rfl

@[simp] theorem State.afterFault_acc (s : State) (w : Option Word) (d : FaultDetail) : (s.afterFault w d).acc = s.acc := rfl
@[simp] theorem State.afterFault_pc (s : State) (w : Option Word) (d : FaultDetail) : (s.afterFault w d).pc = s.pc := rfl
@[simp] theorem State.afterFault_mem (s : State) (w : Option Word) (d : FaultDetail) : (s.afterFault w d).mem = s.mem := rfl
@[simp] theorem State.afterFault_status (s : State) (w : Option Word) (d : FaultDetail) : (s.afterFault w d).status = .faulted { pc := s.pc, word := w, detail := d } := rfl
@[simp] theorem State.afterFault_trace (s : State) (w : Option Word) (d : FaultDetail) : (s.afterFault w d).trace = s.trace := rfl

/-- A raise is what the statements call `afterFault`, with the word at pc. -/
theorem State.raise_eq_afterFault (s : State) (d : FaultDetail) : s.raise d = s.afterFault (s.mem.read? s.pc) d := rfl

/-- Where memory has no cell at pc, the record's word is absent: the fetch fault (60_exceptions.md R96). -/
theorem State.raise_of_no_cell (s : State) (d : FaultDetail) (h : s.mem.read? s.pc = none) :
    s.raise d = s.afterFault none d := by
  rw [State.raise_eq_afterFault, h]

end Sys2Proof.Machine
end

