-- ==== Sys2Proof/Laws/Memory.lean ====
section
/-! SUPPORT. Memory: what a read and a write do to the list of cells, and that every memory operation keeps the canonical
form `Memory.wf` (log 3). -/

namespace Sys2Proof.Machine

/-! ### The canonical form -/

theorem cellsWf_cons {size lo a : Nat} {x : Word} {rest : List (Nat × Word)} :
    cellsWf size lo ((a, x) :: rest) = true ↔
      lo ≤ a ∧ a < size ∧ x ≠ unlistedWord ∧ cellsWf size (a + 1) rest = true := by
  simp [cellsWf, and_assoc]

theorem cellsWf_weaken {size lo lo' : Nat} {cells : List (Nat × Word)} (hle : lo' ≤ lo)
    (h : cellsWf size lo cells = true) : cellsWf size lo' cells = true := by
  cases cells with
  | nil => rfl
  | cons c rest =>
    rw [cellsWf_cons] at h ⊢
    exact ⟨le_trans hle h.1, h.2⟩

theorem cellsWf_grow {size size' : Nat} (hle : size ≤ size') :
    ∀ {cells : List (Nat × Word)} {lo : Nat}, cellsWf size lo cells = true → cellsWf size' lo cells = true
  | [], _, _ => rfl
  | _ :: _, _, h => by
    rw [cellsWf_cons] at h ⊢
    exact ⟨h.1, lt_of_lt_of_le h.2.1 hle, h.2.2.1, cellsWf_grow hle h.2.2.2⟩

theorem setCell_wf {size a : Nat} (v : Word) (ha : a < size) :
    ∀ {cells : List (Nat × Word)} {lo : Nat}, lo ≤ a → cellsWf size lo cells = true →
      cellsWf size lo (setCell cells a v) = true
  | [], lo, hlo, _ => by
    unfold setCell
    split
    · rfl
    · exact cellsWf_cons.mpr ⟨hlo, ha, ‹_›, rfl⟩
  | (b, x) :: rest, lo, hlo, h => by
    obtain ⟨hb, hbs, hx, hrest⟩ := cellsWf_cons.mp h
    unfold setCell
    split
    · split
      · exact h
      · exact cellsWf_cons.mpr ⟨hlo, ha, ‹_›, cellsWf_cons.mpr ⟨by omega, hbs, hx, hrest⟩⟩
    · split
      · subst a
        split
        · exact cellsWf_weaken (by omega) hrest
        · exact cellsWf_cons.mpr ⟨hb, hbs, ‹_›, hrest⟩
      · exact cellsWf_cons.mpr ⟨hb, hbs, hx, setCell_wf v ha (by omega) hrest⟩

theorem Memory.wf_iff {m : Memory} : m.wf = true ↔ m.size ≤ 2048 ∧ cellsWf m.size 0 m.cells = true := by
  simp [Memory.wf, Config.maxMem]

/-- A write keeps the canonical form (20_memory.md R33; log 3). -/
theorem Memory.write_wf {m : Memory} (a : Nat) (v : Word) (h : m.wf = true) : (m.write a v).wf = true := by
  unfold Memory.write
  split
  · rw [Memory.wf_iff] at h ⊢
    exact ⟨h.1, setCell_wf v ‹_› (Nat.zero_le a) h.2⟩
  · exact h

/-- Growing memory up to MAX_MEM, as a load does, keeps the canonical form (log 2). -/
theorem Memory.grow_wf {m : Memory} {n : Nat} (hn : n ≤ 2048) (h : m.wf = true) : (m.grow n).wf = true := by
  rw [Memory.wf_iff] at h ⊢
  exact ⟨max_le h.1 hn, cellsWf_grow (le_max_left _ _) h.2⟩

theorem imageCells_wf : ∀ (image : List Word) (base : Nat),
    cellsWf (base + image.length) base (imageCells base image) = true
  | [], _ => rfl
  | w :: ws, base => by
    have ih : cellsWf (base + (w :: ws).length) (base + 1) (imageCells (base + 1) ws) = true := by
      have h := imageCells_wf ws (base + 1)
      rwa [show base + 1 + ws.length = base + (w :: ws).length by simp; omega] at h
    unfold imageCells
    split
    · exact cellsWf_weaken (Nat.le_succ base) ih
    · exact cellsWf_cons.mpr ⟨le_rfl, by simp, ‹_›, ih⟩

/-- The memory of an admitted IMAGE is in canonical form (70_reset_and_hazards.md R110, R111). -/
theorem Memory.ofImage_wf {image : List Word} (h : image.length ≤ 2048) : (Memory.ofImage image).wf = true := by
  rw [Memory.wf_iff]
  exact ⟨h, by simpa [Memory.ofImage] using imageCells_wf image 0⟩

/-- The memory of the reset state is in canonical form. -/
theorem State.reset_mem_wf : State.reset.mem.wf = true := by decide

/-! ### Reads -/

theorem Memory.read?_of_lt {m : Memory} {a : Nat} (h : a < m.size) : m.read? a = some (m.word a) := if_pos h

theorem Memory.read?_of_ge {m : Memory} {a : Nat} (h : m.size ≤ a) : m.read? a = none := if_neg (Nat.not_lt.mpr h)

/-- What a read answers, said once (20_memory.md R30, R32). -/
theorem Memory.read?_eq_some_iff {m : Memory} {a : Nat} {w : Word} :
    m.read? a = some w ↔ a < m.size ∧ m.word a = w := by
  unfold Memory.read?
  split <;> simp_all

theorem Memory.read?_eq_none_iff {m : Memory} {a : Nat} : m.read? a = none ↔ m.size ≤ a := by
  unfold Memory.read?
  split <;> simp_all

@[simp] theorem Memory.write_size (m : Memory) (a : Nat) (v : Word) : (m.write a v).size = m.size := by
  unfold Memory.write
  split <;> rfl

/-- Below the first listed address a lookup finds nothing listed. -/
theorem lookupCell_below {size a : Nat} :
    ∀ {cells : List (Nat × Word)} {lo : Nat}, cellsWf size lo cells = true → a < lo →
      lookupCell cells a = unlistedWord
  | [], _, _, _ => rfl
  | (b, x) :: rest, lo, h, ha => by
    obtain ⟨hb, -, -, hrest⟩ := cellsWf_cons.mp h
    rw [lookupCell, if_neg (by omega), lookupCell_below hrest (by omega)]

/-- A lookup after a set: the new word at the address, the old words elsewhere. -/
theorem lookupCell_setCell {size : Nat} (a : Nat) (v : Word) (b : Nat) :
    ∀ {cells : List (Nat × Word)} {lo : Nat}, cellsWf size lo cells = true →
      lookupCell (setCell cells a v) b = if b = a then v else lookupCell cells b
  | [], _, _ => by
    unfold setCell
    split <;> simp_all [lookupCell]
  | (c, x) :: rest, lo, h => by
    obtain ⟨-, -, -, hrest⟩ := cellsWf_cons.mp h
    have ih := lookupCell_setCell a v b hrest
    have below : ∀ d, d ≤ c → lookupCell rest d = unlistedWord := fun d hd => lookupCell_below hrest (by omega)
    unfold setCell
    rcases lt_trichotomy a c with hac | rfl | hac
    · by_cases hba : b = a
      · subst hba
        have := below b (by omega)
        by_cases hv : v = unlistedWord <;> (simp_all [lookupCell]; try omega)
      · by_cases hv : v = unlistedWord <;> simp [lookupCell, hac, hv, hba]
    · by_cases hba : b = a
      · subst hba
        have := below b le_rfl
        by_cases hv : v = unlistedWord <;> simp_all [lookupCell]
      · by_cases hv : v = unlistedWord <;> simp [lookupCell, hv, hba]
    · have hlt : ¬ a < c := by omega
      have hne : a ≠ c := by omega
      rw [if_neg hlt, if_neg hne, lookupCell, lookupCell, ih]
      by_cases hba : b = a
      · subst hba
        simp [hne]
      · simp [hba]

/-- A write, said once: the addressed cell, and every other (20_memory.md R33). -/
theorem Memory.read?_write {m : Memory} (hwf : m.wf = true) {a : Nat} (ha : a < m.size) (v : Word) (b : Nat) :
    (m.write a v).read? b = if b = a then some v else m.read? b := by
  have hl := lookupCell_setCell a v b (Memory.wf_iff.mp hwf).2
  unfold Memory.read? Memory.word
  rw [Memory.write_size, Memory.write, if_pos ha, hl]
  split_ifs <;> first | rfl | omega

theorem lookupCell_imageCells_below {a : Nat} : ∀ (image : List Word) (base : Nat), a < base →
    lookupCell (imageCells base image) a = unlistedWord :=
  fun image base h => lookupCell_below (imageCells_wf image base) h

theorem lookupCell_imageCells : ∀ (image : List Word) (base i : Nat) (h : i < image.length),
    lookupCell (imageCells base image) (base + i) = image[i]
  | w :: ws, base, 0, _ => by
    unfold imageCells
    split
    · simpa using (lookupCell_imageCells_below ws (base + 1) (Nat.lt_succ_self base)).trans (by symm; assumption)
    · simp [lookupCell]
  | w :: ws, base, i + 1, h => by
    have ih := lookupCell_imageCells ws (base + 1) i (by simpa using h)
    rw [show base + 1 + i = base + (i + 1) by omega] at ih
    unfold imageCells
    split
    · simpa using ih
    · rw [lookupCell, if_neg (by omega)]
      simpa using ih

/-- The memory of an IMAGE reads as the IMAGE at every address (00_scope.md R7; 10_state.md R22). -/
theorem Memory.read?_ofImage (image : List Word) (a : Nat) : (Memory.ofImage image).read? a = image[a]? := by
  by_cases h : a < image.length
  · rw [Memory.read?_of_lt (m := Memory.ofImage image) h, List.getElem?_eq_getElem h, Memory.word]
    simpa [Memory.ofImage] using lookupCell_imageCells image 0 a h
  · rw [Memory.read?_of_ge (m := Memory.ofImage image) (Nat.le_of_not_lt h), List.getElem?_eq_none (by omega)]

end Sys2Proof.Machine
end

