-- ==== Sys2Proof/Laws/Exec.lean ====
section
/-! SUPPORT. What each shared operation and each meaning can answer, said once; proofs cite these and do not unfold. -/

namespace Sys2Proof.Machine

@[simp] theorem complete_ok (s t : State) : complete s (.ok t) = .next t := rfl

@[simp] theorem complete_error (s : State) (d : FaultDetail) : complete s (.error d) = .next (s.raise d) := rfl

/-- The end of a body, said once: the state it made, or the state of a raise. -/
theorem complete_eq_next_iff {s t : State} {e : Except FaultDetail State} :
    complete s e = .next t ↔ e = .ok t ∨ ∃ d, e = .error d ∧ t = s.raise d := by
  cases e <;> simp [complete, eq_comm]

/-- A body that begins by reading its operand (ADD, SUB, OR, AND): the operand check, then the rest with the word
(20_memory.md R31, R32). -/
theorem complete_readOperand (s : State) (k : Nat) (rest : Word → Except FaultDetail State) :
    complete s (readOperand k s >>= rest) =
      match s.mem.read? k with
      | none => .next (s.raise (.addressOutOfRange .operand k))
      | some b => complete s (rest b) := by
  by_cases h : k < s.mem.size
  · rw [Memory.read?_of_lt h, readOperand, checkAddr, if_neg (Nat.not_le.mpr h)]
    rfl
  · rw [Memory.read?_of_ge (Nat.le_of_not_lt h), readOperand, checkAddr, if_pos (Nat.le_of_not_lt h)]
    rfl

/-- A body that begins by writing its operand (STORE): the operand check, then the rest with the state stored to
(20_memory.md R31, R33). -/
theorem complete_writeOperand (s : State) (k : Nat) (v : Word) (rest : State → Except FaultDetail State) :
    complete s (writeOperand k v s >>= rest) =
      if k < s.mem.size then complete s (rest (s.store k v))
      else .next (s.raise (.addressOutOfRange .operand k)) := by
  by_cases h : k < s.mem.size
  · rw [if_pos h, writeOperand, checkAddr, if_neg (Nat.not_le.mpr h)]
    rfl
  · rw [if_neg h, writeOperand, checkAddr, if_pos (Nat.le_of_not_lt h)]
    rfl

/-- ADD, said once (42_add_sub.md R83). -/
theorem execAdd_eq (k : Nat) (s : State) :
    execAdd k s =
      match s.mem.read? k with
      | none => .next (s.raise (.addressOutOfRange .operand k))
      | some b =>
        match smAdd s.acc b with
        | .ok r => .next (s.setAcc r).advance
        | .error d => .next (s.raise d) := by
  rw [execAdd, complete_readOperand]
  cases s.mem.read? k with
  | none => rfl
  | some b =>
    dsimp only
    cases smAdd s.acc b <;> rfl

/-- SUB, said once (42_add_sub.md R84). -/
theorem execSub_eq (k : Nat) (s : State) :
    execSub k s =
      match s.mem.read? k with
      | none => .next (s.raise (.addressOutOfRange .operand k))
      | some b =>
        match smSub s.acc b with
        | .ok r => .next (s.setAcc r).advance
        | .error d => .next (s.raise d) := by
  rw [execSub, complete_readOperand]
  cases s.mem.read? k with
  | none => rfl
  | some b =>
    dsimp only
    cases smSub s.acc b <;> rfl

/-- STORE, said once (43_store_clear.md R85). -/
theorem execStore_eq (k : Nat) (s : State) :
    execStore k s =
      if k < s.mem.size then .next (s.store k s.acc).advance
      else .next (s.raise (.addressOutOfRange .operand k)) := by
  rw [execStore, complete_writeOperand]
  rfl

/-- OR, said once (44_bitwise.md R87). -/
theorem execOr_eq (k : Nat) (s : State) :
    execOr k s =
      match s.mem.read? k with
      | none => .next (s.raise (.addressOutOfRange .operand k))
      | some b => .next (s.setAcc (smOr s.acc b)).advance := by
  rw [execOr, complete_readOperand]
  rfl

/-- AND, said once (44_bitwise.md R88). -/
theorem execAnd_eq (k : Nat) (s : State) :
    execAnd k s =
      match s.mem.read? k with
      | none => .next (s.raise (.addressOutOfRange .operand k))
      | some b => .next (s.setAcc (smAnd s.acc b)).advance := by
  rw [execAnd, complete_readOperand]
  rfl

/-- Why a body raises: its operand has no cell, or it is ADD or SUB and the addition overflows (60_exceptions.md R95,
R99, checks 3 and 4). -/
inductive RaiseCause (i : Instr) (s : State) : FaultDetail → Prop where
  | operand (hm : i.addressesMemory = true) (hge : s.mem.size ≤ i.operand) :
      RaiseCause i s (.addressOutOfRange .operand i.operand)
  | add (k : Nat) (b : Word) (d : FaultDetail) (hi : i = .add k) (hr : s.mem.read? k = some b)
      (he : smAdd s.acc b = .error d) : RaiseCause i s d
  | sub (k : Nat) (b : Word) (d : FaultDetail) (hi : i = .sub k) (hr : s.mem.read? k = some b)
      (he : smSub s.acc b = .error d) : RaiseCause i s d

/-- What a body makes when it completes: which of acc, pc, mem and status it writes (10_state.md R17, R18, R22). -/
inductive Completed (i : Instr) (s : State) : State → Prop where
  | acc (r : Word) (hi : i.mnemonic ∈ [Mnemonic.add, .sub, .clear, .or, .and, .shiftr, .shiftl]) :
      Completed i s (s.setAcc r).advance
  | store (k : Nat) (hi : i = .store k) (hk : k < s.mem.size) : Completed i s (s.store k s.acc).advance
  | bge (k : Nat) (hi : i = .bge k) : Completed i s (if geZero s.acc then s.setPc k else s.advance)
  | blt (k : Nat) (hi : i = .blt k) : Completed i s (if ltZero s.acc then s.setPc k else s.advance)
  | endRun (k : Nat) (hi : i = .endRun k) : Completed i s (s.setStatus .halted)

/-- Everything exec can answer, said once: a next state always, by completing or by a raise with a cause
(41_engine.md R74, R77; 60_exceptions.md R97). -/
theorem exec_cases (i : Instr) (s : State) :
    ∃ t, exec i s = .next t ∧ (Completed i s t ∨ ∃ d, RaiseCause i s d ∧ t = s.raise d) := by
  have beyond : ∀ {k}, s.mem.read? k = none → s.mem.size ≤ k := Memory.read?_eq_none_iff.mp
  cases i with
  | add k =>
    rw [exec, execAdd_eq]
    cases hr : s.mem.read? k with
    | none => exact ⟨_, rfl, .inr ⟨_, .operand rfl (beyond hr), rfl⟩⟩
    | some b =>
      dsimp only
      cases he : smAdd s.acc b with
      | ok r => exact ⟨_, rfl, .inl (.acc r (by simp [Instr.mnemonic]))⟩
      | error d => exact ⟨_, rfl, .inr ⟨_, .add k b d rfl hr he, rfl⟩⟩
  | sub k =>
    rw [exec, execSub_eq]
    cases hr : s.mem.read? k with
    | none => exact ⟨_, rfl, .inr ⟨_, .operand rfl (beyond hr), rfl⟩⟩
    | some b =>
      dsimp only
      cases he : smSub s.acc b with
      | ok r => exact ⟨_, rfl, .inl (.acc r (by simp [Instr.mnemonic]))⟩
      | error d => exact ⟨_, rfl, .inr ⟨_, .sub k b d rfl hr he, rfl⟩⟩
  | store k =>
    rw [exec, execStore_eq]
    split
    · exact ⟨_, rfl, .inl (.store k rfl ‹_›)⟩
    · exact ⟨_, rfl, .inr ⟨_, .operand rfl (Nat.le_of_not_lt ‹_›), rfl⟩⟩
  | clear k => exact ⟨_, rfl, .inl (.acc _ (by simp [Instr.mnemonic]))⟩
  | or k =>
    rw [exec, execOr_eq]
    cases hr : s.mem.read? k with
    | none => exact ⟨_, rfl, .inr ⟨_, .operand rfl (beyond hr), rfl⟩⟩
    | some b => exact ⟨_, rfl, .inl (.acc _ (by simp [Instr.mnemonic]))⟩
  | and k =>
    rw [exec, execAnd_eq]
    cases hr : s.mem.read? k with
    | none => exact ⟨_, rfl, .inr ⟨_, .operand rfl (beyond hr), rfl⟩⟩
    | some b => exact ⟨_, rfl, .inl (.acc _ (by simp [Instr.mnemonic]))⟩
  | shiftr k => exact ⟨_, rfl, .inl (.acc _ (by simp [Instr.mnemonic]))⟩
  | shiftl k => exact ⟨_, rfl, .inl (.acc _ (by simp [Instr.mnemonic]))⟩
  | bge k => exact ⟨_, rfl, .inl (.bge k rfl)⟩
  | blt k => exact ⟨_, rfl, .inl (.blt k rfl)⟩
  | endRun k => exact ⟨_, rfl, .inl (.endRun k rfl)⟩

/-- The same, from an answer of exec. -/
theorem exec_next_cases {i : Instr} {s t : State} (h : exec i s = .next t) :
    Completed i s t ∨ ∃ d, RaiseCause i s d ∧ t = s.raise d := by
  obtain ⟨t', ht', hc⟩ := exec_cases i s
  rw [ht', Host.Outcome.next.injEq] at h
  exact h ▸ hc

end Sys2Proof.Machine
end

