-- ==== Sys2Proof/Laws/Engine.lean ====
section
/-! SUPPORT. What a step can do, said once (41_engine.md R77). -/

namespace Sys2Proof.Machine

theorem stepWith_running {m : OpcodeMap} {s : State} (h : s.status = .running) :
    stepWith m s = fetchDecodeExecute m s := by
  rw [stepWith, h]

/-- A step has a next state only from Running (41_engine.md R80). -/
theorem running_of_stepWith {m : OpcodeMap} {s t : State} (h : stepWith m s = .next t) : s.status = .running := by
  unfold stepWith at h
  split at h
  · assumption
  · exact absurd h (by simp)
  · exact absurd h (by simp)

/-- Everything a step from Running does, with its cause (41_engine.md R77; 60_exceptions.md R99). -/
inductive StepCause (m : OpcodeMap) (s : State) : State → Prop where
  | fetchFault (hge : s.mem.size ≤ s.pc) : StepCause m s (s.raise (.addressOutOfRange .fetch s.pc))
  | unknown (w : Word) (op : Nat) (hw : s.mem.read? s.pc = some w) (hd : decodeWith m w = .unknown op) :
      StepCause m s (s.raise (.unknownOpcode op))
  | executed (w : Word) (i : Instr) (t : State) (hw : s.mem.read? s.pc = some w) (hd : decodeWith m w = .instr i)
      (ht : exec i s = .next t) : StepCause m s (emitCompleted i s t)

theorem stepWith_cases {m : OpcodeMap} {s : State} (h : s.status = .running) :
    ∃ t, stepWith m s = .next t ∧ StepCause m s t := by
  rw [stepWith_running h, fetchDecodeExecute]
  cases hw : s.mem.read? s.pc with
  | none => exact ⟨_, rfl, .fetchFault (Memory.read?_eq_none_iff.mp hw)⟩
  | some w =>
    dsimp only
    cases hd : decodeWith m w with
    | unknown op => exact ⟨_, rfl, .unknown w op hw hd⟩
    | instr i =>
      obtain ⟨t, ht, -⟩ := exec_cases i s
      refine ⟨emitCompleted i s t, ?_, .executed w i t hw hd ht⟩
      simp only [executeTraced, ht]

/-- The same, from an answer of a step. -/
theorem stepWith_next_cases {m : OpcodeMap} {s t : State} (h : stepWith m s = .next t) : StepCause m s t := by
  obtain ⟨t', ht', hc⟩ := stepWith_cases (m := m) (running_of_stepWith h)
  rw [ht', Host.Outcome.next.injEq] at h
  exact h ▸ hc

@[simp] theorem emitCompleted_acc (i : Instr) (s t : State) : (emitCompleted i s t).acc = t.acc := by
  unfold emitCompleted; split <;> rfl

@[simp] theorem emitCompleted_pc (i : Instr) (s t : State) : (emitCompleted i s t).pc = t.pc := by
  unfold emitCompleted; split <;> rfl

@[simp] theorem emitCompleted_mem (i : Instr) (s t : State) : (emitCompleted i s t).mem = t.mem := by
  unfold emitCompleted; split <;> rfl

@[simp] theorem emitCompleted_status (i : Instr) (s t : State) : (emitCompleted i s t).status = t.status := by
  unfold emitCompleted; split <;> rfl

/-- A state placed by a load is Running, and its memory stays canonical (log 2). -/
theorem State.placeAtPc_wf {s : State} (w : Word) (h : s.mem.wf = true) : (s.placeAtPc w).mem.wf = true := by
  unfold State.placeAtPc
  dsimp only
  split
  · exact Memory.write_wf _ _ h
  · exact Memory.write_wf _ _ (Memory.grow_wf le_rfl h)

/-- A step is `exec` with the trace port, for a decoded word (41_engine.md R77). -/
theorem stepWith_decoded {m : OpcodeMap} {s : State} {w : Word} {i : Instr} (h : s.status = .running)
    (hw : s.mem.read? s.pc = some w) (hd : decodeWith m w = .instr i) : stepWith m s = executeTraced i s := by
  simp only [stepWith_running h, fetchDecodeExecute, hw, hd]

/-- Every step keeps memory canonical (log 3). -/
theorem stepWith_mem_wf {m : OpcodeMap} {s t : State} (h : stepWith m s = .next t) (hwf : s.mem.wf = true) :
    t.mem.wf = true := by
  cases stepWith_next_cases h with
  | fetchFault _ => exact hwf
  | unknown _ _ _ _ => exact hwf
  | executed w i u hw hd hu =>
    rw [emitCompleted_mem]
    rcases exec_next_cases hu with hc | ⟨d, -, rfl⟩
    · cases hc with
      | acc r _ => exact hwf
      | store k _ _ => exact Memory.write_wf k _ hwf
      | bge k _ => split <;> exact hwf
      | blt k _ => split <;> exact hwf
      | endRun k _ => exact hwf
    · exact hwf

end Sys2Proof.Machine
end

