-- ==== Sys2Proof/Laws/PerInstr.lean ====
section
/-! SUPPORT. Facts about the instructions as syntax, one lemma for each constructor of Instr (LAWS.json). -/

namespace Sys2Proof.Laws

/-- An instruction is its mnemonic with its operand (41_engine.md R75). -/
def OfMnemonic.Statement (i : Instr) : Prop := Instr.ofMnemonic i.mnemonic i.operand = i

theorem OfMnemonic.add (k : Nat) : OfMnemonic.Statement (.add k) := rfl
theorem OfMnemonic.sub (k : Nat) : OfMnemonic.Statement (.sub k) := rfl
theorem OfMnemonic.store (k : Nat) : OfMnemonic.Statement (.store k) := rfl
theorem OfMnemonic.clear (k : Nat) : OfMnemonic.Statement (.clear k) := rfl
theorem OfMnemonic.or (k : Nat) : OfMnemonic.Statement (.or k) := rfl
theorem OfMnemonic.and (k : Nat) : OfMnemonic.Statement (.and k) := rfl
theorem OfMnemonic.shiftr (k : Nat) : OfMnemonic.Statement (.shiftr k) := rfl
theorem OfMnemonic.shiftl (k : Nat) : OfMnemonic.Statement (.shiftl k) := rfl
theorem OfMnemonic.bge (k : Nat) : OfMnemonic.Statement (.bge k) := rfl
theorem OfMnemonic.blt (k : Nat) : OfMnemonic.Statement (.blt k) := rfl
theorem OfMnemonic.endRun (k : Nat) : OfMnemonic.Statement (.endRun k) := rfl

/-- The operand is checked as an address exactly for ADD, SUB, STORE, OR and AND (30_encoding.md R52). -/
def OperandField.Statement (i : Instr) : Prop :=
  i.addressesMemory = true ↔ i.mnemonic ∈ [Mnemonic.add, .sub, .store, .or, .and]

theorem OperandField.add (k : Nat) : OperandField.Statement (.add k) := by
  simp [OperandField.Statement, Instr.addressesMemory, Instr.mnemonic]
theorem OperandField.sub (k : Nat) : OperandField.Statement (.sub k) := by
  simp [OperandField.Statement, Instr.addressesMemory, Instr.mnemonic]
theorem OperandField.store (k : Nat) : OperandField.Statement (.store k) := by
  simp [OperandField.Statement, Instr.addressesMemory, Instr.mnemonic]
theorem OperandField.clear (k : Nat) : OperandField.Statement (.clear k) := by
  simp [OperandField.Statement, Instr.addressesMemory, Instr.mnemonic]
theorem OperandField.or (k : Nat) : OperandField.Statement (.or k) := by
  simp [OperandField.Statement, Instr.addressesMemory, Instr.mnemonic]
theorem OperandField.and (k : Nat) : OperandField.Statement (.and k) := by
  simp [OperandField.Statement, Instr.addressesMemory, Instr.mnemonic]
theorem OperandField.shiftr (k : Nat) : OperandField.Statement (.shiftr k) := by
  simp [OperandField.Statement, Instr.addressesMemory, Instr.mnemonic]
theorem OperandField.shiftl (k : Nat) : OperandField.Statement (.shiftl k) := by
  simp [OperandField.Statement, Instr.addressesMemory, Instr.mnemonic]
theorem OperandField.bge (k : Nat) : OperandField.Statement (.bge k) := by
  simp [OperandField.Statement, Instr.addressesMemory, Instr.mnemonic]
theorem OperandField.blt (k : Nat) : OperandField.Statement (.blt k) := by
  simp [OperandField.Statement, Instr.addressesMemory, Instr.mnemonic]
theorem OperandField.endRun (k : Nat) : OperandField.Statement (.endRun k) := by
  simp [OperandField.Statement, Instr.addressesMemory, Instr.mnemonic]

end Sys2Proof.Laws
end

