-- ==== Sys2Proof/Tests/Slice0.lean ====
section
/-! SUPPORT. Tests of the model against words and results of the spec, the smoke tests of the well-formedness checks, and a
witness for the hypotheses of every statement that has some. Expected words and results are those of 95_test_vectors.md
and of the examples in the rules R83 to R94, unless a comment says otherwise. -/

namespace Sys2Proof.Tests

open Sys2Proof Sys2Proof.Machine

/-- A small state: an image loaded, then acc and pc set. -/
def st (image : List Word) (acc : Word) (pc : Nat) : State := { State.resetWith image pc with acc := acc }

/-- The state of an answer, if it is a next state. -/
def next? : Host.Outcome State Fault Refusal → Option State
  | .next t => some t
  | .fault _ => none
  | .refused _ => none

/-- The acc and pc of an answer. -/
def accPc (o : Host.Outcome State Fault Refusal) : Option (Word × Nat) := (next? o).map fun t => (t.acc, t.pc)

/-- The status of an answer. -/
def statusOf (o : Host.Outcome State Fault Refusal) : Option Status := (next? o).map fun t => t.status

/-! ### The checks of well-formedness refuse ill-formed terms -/

theorem test_operand_2048_is_ill_formed : ¬ (Instr.add 2048).WellFormed := by decide
theorem test_unused_operand_2048_is_ill_formed : ¬ (Instr.endRun 2048).WellFormed := by decide
theorem test_operand_2047_is_well_formed : (Instr.blt 2047).WellFormed := by decide

/-- REF_MAP with one mnemonic moved. -/
def moved (k : Mnemonic) (op : Nat) : OpcodeMap := fun j => if j = k then op else refMap j

theorem test_map_with_value_32_is_inadmissible : ¬ (moved .add 32).Admissible :=
  fun h => absurd (h.lt_32 .add) (by decide)
theorem test_map_with_shared_value_is_inadmissible : ¬ (moved .add 11).Admissible :=
  fun h => absurd (h.injective .add .endRun (by decide)) (by decide)
theorem test_map_with_value_9_is_inadmissible : ¬ (moved .bge 9).Admissible :=
  fun h => absurd rfl (h.ne_9 .bge)

theorem test_memory_out_of_order_is_refused : (Memory.mk 8 [(2, 1), (1, 1)]).wf = false := by decide
theorem test_memory_with_listed_zero_is_refused : (Memory.mk 8 [(1, 0)]).wf = false := by decide
theorem test_memory_cell_at_N_is_refused : (Memory.mk 8 [(8, 1)]).wf = false := by decide
theorem test_memory_of_2049_words_is_refused : (Memory.mk 2049 []).wf = false := by decide

/-! ### Every constructor's word, written out from 30_encoding.md R54: opcode in bits 15:11, operand in bits 10:0 -/

theorem test_decode_ADD : decode 0b0000000000000101 = .instr (.add 5) := by decide
theorem test_decode_SUB : decode 0b0000100000000110 = .instr (.sub 6) := by decide
theorem test_decode_STORE : decode 0b0001000000000101 = .instr (.store 5) := by decide
theorem test_decode_CLEAR : decode 0b0001111111111111 = .instr (.clear 2047) := by decide
theorem test_decode_OR : decode 0b0010000000000111 = .instr (.or 7) := by decide
theorem test_decode_AND : decode 0b0010100000001000 = .instr (.and 8) := by decide
theorem test_decode_SHIFTR : decode 0b0011000000000001 = .instr (.shiftr 1) := by decide
theorem test_decode_SHIFTL : decode 0b0011111111111111 = .instr (.shiftl 2047) := by decide
theorem test_decode_BGE : decode 0b0100000000000111 = .instr (.bge 7) := by decide
theorem test_decode_BLT : decode 0b0101010000000000 = .instr (.blt 1024) := by decide
theorem test_decode_END : decode 0b0101100000000000 = .instr (.endRun 0) := by decide
theorem test_decode_opcode_9_unknown : decode 0b0100100000000000 = .unknown 9 := by decide
theorem test_decode_opcode_31_unknown : decode 0b1111111111111111 = .unknown 31 := by decide

/-- Vectors E6, E7 and E8: the encoder truncates. -/
theorem test_encode_truncates : encodeFields 1 2048 = 0x0800 ∧ encodeFields 2 2049 = 0x1001 ∧ encodeFields 33 5 = 0x0805 := by
  decide

theorem test_encode_SHIFTL : encode (.shiftl 2) = 0x3802 := by decide

theorem test_table_word_ADD : decodeTableWord 16 0x0000 = some (.add 0) := by decide
theorem test_table_word_unassigned : decodeTableWord 16 0x4800 = none := by decide

/-! ### One step of each instruction (the vectors' names stand in the comments) -/

/-- The example of R83, vector A1. -/
theorem test_ADD_opposite_signs : accPc (exec (.add 5) (st [0, 0, 0, 0, 0, 0x801E] 0x0014 1)) = some (0x800A, 2) := by decide
/-- Vector A15. -/
theorem test_ADD_overflows : statusOf (exec (.add 1) (st [0x0001, 0x0001] 0x7FFF 0)) =
    some (.faulted { pc := 0, word := some 0x0001, detail := .arithmeticOverflow 0x7FFF 0x0001 }) := by decide
/-- The example of R84, vector S1. -/
theorem test_SUB_below_zero : accPc (exec (.sub 6) (st [0, 0, 0, 0, 0, 0, 0x001E] 0x0014 0)) = some (0x800A, 1) := by decide
/-- Vector S7: (-0) - (+0) is -0. -/
theorem test_SUB_keeps_minus_zero : accPc (exec (.sub 1) (st [0x0801, 0x0000] 0x8000 0)) = some (0x8000, 1) := by decide
/-- Vector T2: the -0 is stored bit for bit. -/
theorem test_STORE_minus_zero :
    (next? (exec (.store 6) (st [0, 1, 2, 3, 4, 5, 6, 7] 0x8000 0))).map (fun t => t.mem) =
      some (Memory.ofImage [0, 1, 2, 3, 4, 5, 0x8000, 7]) := by decide
/-- Vector X4. -/
theorem test_STORE_beyond_memory : statusOf (step (st [0x1005, 0x5800] 0x0000 0)) =
    some (.faulted { pc := 0, word := some 0x1005, detail := .addressOutOfRange .operand 5 }) := by decide
/-- Vector T5: the operand is unused. -/
theorem test_CLEAR_ignores_operand : accPc (exec (.clear 2047) (st [0x1FFF] 0x8000 0)) = some (0x0000, 1) := by decide
/-- The example of R87, vector B1. -/
theorem test_OR_sign_bit : accPc (exec (.or 1) (st [0, 0x8000] 0x0005 4)) = some (0x8005, 5) := by decide
/-- The example of R88, vector B5. -/
theorem test_AND_clears_sign : accPc (exec (.and 1) (st [0, 0x7FFF] 0x8005 4)) = some (0x0005, 5) := by decide
/-- Vector H2: -1 shifted right is -0. -/
theorem test_SHIFTR_to_minus_zero : accPc (exec (.shiftr 1) (st [] 0x8001 4)) = some (0x8000, 5) := by decide
/-- Vector H4. -/
theorem test_SHIFTR_by_15 : accPc (exec (.shiftr 15) (st [] 0x7FFF 4)) = some (0x0000, 5) := by decide
/-- Vector H11: the bit shifted past bit 14 is lost. -/
theorem test_SHIFTL_drops_bit : accPc (exec (.shiftl 1) (st [] 0xC001 4)) = some (0x8002, 5) := by decide
/-- Vector H14. -/
theorem test_SHIFTL_by_20 : accPc (exec (.shiftl 20) (st [] 0x8003 4)) = some (0x8000, 5) := by decide
/-- Vector J2: -0 takes BGE. -/
theorem test_BGE_minus_zero : accPc (exec (.bge 9) (st [] 0x8000 4)) = some (0x8000, 9) := by decide
/-- Vector J4. -/
theorem test_BGE_not_taken : accPc (exec (.bge 9) (st [] 0x8001 4)) = some (0x8001, 5) := by decide
/-- Vector J2: -0 does not take BLT. -/
theorem test_BLT_minus_zero : accPc (exec (.blt 9) (st [] 0x8000 4)) = some (0x8000, 5) := by decide
/-- Vector J6. -/
theorem test_BLT_taken : accPc (exec (.blt 9) (st [] 0xFFFF 4)) = some (0xFFFF, 9) := by decide
/-- Vector X10: END with operand 2047 halts, and emits no record. -/
theorem test_END_halts : next? (step (st [0x5FFF] 0x0000 0)) = some ((st [0x5FFF] 0x0000 0).setStatus .halted) := by decide

/-! ### The step, the trace, the views and the host -/

/-- Vector V1, its first record. -/
theorem test_step_emits_record : (next? (step (st [0x0004, 0, 0, 0, 0x0014] 0x0000 0))).map (fun t => t.trace) =
    some [{ pc := 0, mnemonic := .add, operand := 4, accBefore := 0x0000, accAfter := 0x0014 }] := by decide
/-- Vector X2. -/
theorem test_step_unknown_opcode : statusOf (step (st [0x8001] 0x0000 0)) =
    some (.faulted { pc := 0, word := some 0x8001, detail := .unknownOpcode 16 }) := by decide
/-- Vector X8: the first step after reset with the empty image. -/
theorem test_step_of_empty_image : statusOf (step State.reset) =
    some (.faulted { pc := 0, word := none, detail := .addressOutOfRange .fetch 0 }) := by decide
/-- 41_engine.md R80. -/
theorem test_halted_takes_no_step : next? (step ((st [0x5800] 0 0).setStatus .halted)) = none := by decide
/-- A word placed after reset runs next; ADD(2047) reads the last cell of the address space. -/
theorem test_placed_word_runs : accPc (step (State.reset.withFetchWord 16 0x07FF)) = some (0x0000, 1) := by decide
/-- 20_memory.md R46 on the image 0x8001, whose opcode is unassigned. -/
theorem test_dump_marks_unknown : dump refMap (Memory.ofImage [0x8001]) =
    [{ address := 0, rawBits := 0x8001, integerInterpretation := { sign := true, magnitude := 1 },
       instructionInterpretation := .unknown 16 }] := by decide
/-- 40_alu.md R71. -/
theorem test_text_of_minus_zero : (integerView 0x8000).text = "-0" := by decide
/-- Vectors F10 and F12. -/
theorem test_fromInt_masks : fromInt (-32768) = 0x8000 ∧ fromInt (-40000) = 0x9C40 := by decide
/-- 70_reset_and_hazards.md R113: the final state is not read during a run. -/
theorem test_no_final_state_in_run :
    (Session.serve refMap (.inRun (st [0x4000] 0 0)) .readFinalState).2 = .notAdmitted := by decide
/-- 70_reset_and_hazards.md R111. -/
theorem test_long_image_refused : hostReset (List.replicate 2049 0) 0 = none :=
  if_neg (by rw [List.length_replicate]; decide)

/-! ### Witnesses: the hypotheses of each statement are met, clause by clause -/

theorem witness_FieldsRoundTrip : 31 < 32 ∧ 2047 < 2048 := by decide
theorem witness_DecodeInvertsEncode : refMap.Admissible ∧ (Instr.clear 2047).WellFormed := ⟨refMap_admissible, by decide⟩
theorem witness_EncodeInvertsDecode : refMap.Admissible ∧ decodeWith refMap 0x5FFF = .instr (.endRun 2047) :=
  ⟨refMap_admissible, by decide⟩
theorem witness_DecodeResolves_known : refMap.Admissible ∧ refMap .endRun = decodeOpcode 0x5FFF :=
  ⟨refMap_admissible, by decide⟩
theorem witness_DecodeResolves_unknown : refMap.Admissible ∧ ∀ k, refMap k ≠ decodeOpcode 0x4800 :=
  ⟨refMap_admissible, refMap_admissible.ne_9⟩
theorem witness_UnassignedOpcodes : refMap.Admissible ∧ decodeOpcode 0x4FFF = 9 ∧ decodeOpcode 0x4FFF = decodeOpcode 0x4800 :=
  ⟨refMap_admissible, by decide, by decide⟩
theorem witness_ImageItemsReadBack : refMap.Admissible ∧ (2047 : Nat) < 2048 ∧ (-32767 : Int) ≤ -32767 ∧ (-32767 : Int) ≤ 32767 :=
  ⟨refMap_admissible, by decide, by decide, by decide⟩
theorem witness_SignMagnitudeOfWord : (32767 : Nat) ≤ 32767 := by decide
theorem witness_IntegerValueOfWord : sgn 0x7FFF = false ∧ sgn 0x8000 = true := by decide
theorem witness_FromIntReadsBack : (-32767 : Int) ≤ 32767 ∧ (32767 : Int) ≤ 32767 := by decide
theorem witness_SmAddCases_same_sign : sgn 0x4000 = sgn 0x3FFF ∧ mag 0x4000 + mag 0x3FFF ≤ 32767 := by decide
theorem witness_SmAddCases_overflow : sgn 0x4000 = sgn 0x4000 ∧ 32767 < mag 0x4000 + mag 0x4000 := by decide
theorem witness_SmAddCases_first_larger : sgn 0x0005 ≠ sgn 0x8000 ∧ mag 0x8000 < mag 0x0005 := by decide
theorem witness_SmAddCases_second_larger : sgn 0x0014 ≠ sgn 0x801E ∧ mag 0x0014 < mag 0x801E := by decide
theorem witness_SmAddCases_equal : sgn 0x0000 ≠ sgn 0x8000 ∧ mag 0x0000 = mag 0x8000 := by decide
theorem witness_OverflowExactly : smAdd 0x4000 0x3FFF = .ok 0x7FFF ∧ sgn 0x4000 = sgn 0x3FFF := ⟨rfl, by decide⟩
theorem witness_AddSubMatchIntegers : smAdd 0x0014 0x801E = .ok 0x800A ∧ smSub 0x0014 0x001E = .ok 0x800A := ⟨rfl, rfl⟩
theorem witness_MemWrite : (Memory.ofImage [1, 2]).wf = true ∧ 1 < (Memory.ofImage [1, 2]).size ∧ (0 : Nat) ≠ 1 := by decide
theorem witness_MemWrite_STORE : 1 < (st [1, 2] 7 0).mem.size ∧
    exec (.store 1) (st [1, 2] 7 0) = .next ((st [1, 2] 7 0).store 1 7).advance := ⟨by decide, rfl⟩
theorem witness_MemWrite_others : (∀ k, Instr.clear 0 ≠ .store k) ∧
    exec (.clear 0) (st [1] 7 0) = .next ((st [1] 7 0).setAcc 0).advance := ⟨fun _ => by simp, rfl⟩
/-- The image and the same memory written in another way: a cell set and set back. -/
theorem witness_EqualReads : (Memory.ofImage [1, 2]).wf = true ∧ (((Memory.ofImage [1, 2]).write 0 5).write 0 1).wf = true ∧
    (Memory.ofImage [1, 2]).size = (((Memory.ofImage [1, 2]).write 0 5).write 0 1).size ∧
    ∀ a, (Memory.ofImage [1, 2]).read? a = (((Memory.ofImage [1, 2]).write 0 5).write 0 1).read? a :=
  ⟨by decide, by decide, by decide, fun _ => rfl⟩
theorem witness_ResetSetsEveryElement : ([0x1800, 0x5800] : List Word).length ≤ 2048 := by decide
theorem witness_ResetAdmission_long : 2048 < (List.replicate 2049 (0 : Word)).length := by
  rw [List.length_replicate]
  decide
theorem witness_ResetAdmission_start : ([0x5800] : List Word).length ≤ 1 := by decide
theorem witness_DumpShowsEveryCell : (Memory.ofImage [0x8001]).read? 0 = some 0x8001 := by decide
theorem witness_AddCompletes : (st [0, 0x3FFF] 0x4000 0).mem.read? 1 = some 0x3FFF ∧
    (sgn (st [0, 0x3FFF] 0x4000 0).acc = sgn 0x3FFF → mag (st [0, 0x3FFF] 0x4000 0).acc + mag 0x3FFF ≤ 32767) := by decide
theorem witness_SubCompletes : (st [0, 0x7FFE] 0x8001 0).mem.read? 1 = some 0x7FFE ∧
    (sgn (st [0, 0x7FFE] 0x8001 0).acc ≠ sgn 0x7FFE → mag (st [0, 0x7FFE] 0x8001 0).acc + mag 0x7FFE ≤ 32767) := by decide
theorem witness_StoreCompletes : (st [1, 2] 7 0).mem.wf = true ∧ 1 < (st [1, 2] 7 0).mem.size := by decide
theorem witness_OrAndComplete : (st [0, 0x8000] 0x0005 0).mem.read? 1 = some 0x8000 := by decide
theorem witness_ShiftCounts : (0 : Nat) = 0 ∧ 15 ≤ (15 : Nat) ∧ 15 ≤ (2047 : Nat) := by decide
theorem witness_EndCompletes : (st [0x5FFF] 3 0).status = .running ∧ (st [0x5FFF] 3 0).mem.read? (st [0x5FFF] 3 0).pc = some 0x5FFF ∧
    decodeWith refMap 0x5FFF = .instr (.endRun 2047) := by decide
theorem witness_OperandBeyondMemory : (Instr.add 2).addressesMemory = true ∧ (st [1, 2] 7 0).mem.size ≤ (Instr.add 2).operand := by
  decide
theorem witness_AddOverflow : (st [0, 0x0001] 0x7FFF 0).mem.read? 1 = some 0x0001 ∧
    32767 < mag (st [0, 0x0001] 0x7FFF 0).acc + mag 0x0001 ∧ sgn (st [0, 0x0001] 0x7FFF 0).acc = sgn 0x0001 := by decide
theorem witness_SubOverflow : (st [0, 0x7FFF] 0x8001 0).mem.read? 1 = some 0x7FFF ∧
    32767 < mag (st [0, 0x7FFF] 0x8001 0).acc + mag 0x7FFF ∧ sgn (st [0, 0x7FFF] 0x8001 0).acc ≠ sgn 0x7FFF := by decide
theorem witness_Checks_fetch : (st [0x5800] 0 1).status = .running ∧ (st [0x5800] 0 1).mem.size ≤ (st [0x5800] 0 1).pc := by decide
theorem witness_Checks_opcode : (st [0x4FFF] 0 0).status = .running ∧ (st [0x4FFF] 0 0).mem.read? (st [0x4FFF] 0 0).pc = some 0x4FFF ∧
    decodeWith refMap 0x4FFF = .unknown 9 := by decide
theorem witness_Checks_operand : (st [0x0001] 0 0).status = .running ∧ (st [0x0001] 0 0).mem.read? (st [0x0001] 0 0).pc = some 0x0001 ∧
    decodeWith refMap 0x0001 = .instr (.add 1) ∧ (Instr.add 1).addressesMemory = true ∧
    (st [0x0001] 0 0).mem.size ≤ (Instr.add 1).operand := by decide
theorem witness_Checks_ADD_overflow : (st [0x0001, 0x4000] 0x4000 0).status = .running ∧
    (st [0x0001, 0x4000] 0x4000 0).mem.read? (st [0x0001, 0x4000] 0x4000 0).pc = some 0x0001 ∧
    decodeWith refMap 0x0001 = .instr (.add 1) ∧ (st [0x0001, 0x4000] 0x4000 0).mem.read? 1 = some 0x4000 ∧
    sgn (st [0x0001, 0x4000] 0x4000 0).acc = sgn 0x4000 ∧
    32767 < mag (st [0x0001, 0x4000] 0x4000 0).acc + mag 0x4000 := by decide
theorem witness_Checks_SUB_overflow : (st [0x0801, 0xC000] 0x4000 0).status = .running ∧
    (st [0x0801, 0xC000] 0x4000 0).mem.read? (st [0x0801, 0xC000] 0x4000 0).pc = some 0x0801 ∧
    decodeWith refMap 0x0801 = .instr (.sub 1) ∧ (st [0x0801, 0xC000] 0x4000 0).mem.read? 1 = some 0xC000 ∧
    sgn (st [0x0801, 0xC000] 0x4000 0).acc ≠ sgn 0xC000 ∧
    32767 < mag (st [0x0801, 0xC000] 0x4000 0).acc + mag 0xC000 := by decide
theorem witness_FaultsArePrecise : (st [0x0001] 0 0).status = .running ∧
    ∃ t r, stepWith refMap (st [0x0001] 0 0) = .next t ∧ t.status = .faulted r := ⟨rfl, _, _, rfl, rfl⟩
theorem witness_BranchBeyondMemory : (st [0x4001] 0 0).status = .running ∧ (st [0x4001] 0 0).mem.size ≤ 1 := by decide
theorem witness_StepRunsDecoded : (st [0x1FFF] 7 0).status = .running ∧ (st [0x1FFF] 7 0).mem.read? (st [0x1FFF] 7 0).pc = some 0x1FFF ∧
    decodeWith refMap 0x1FFF = .instr (.clear 2047) := by decide
theorem witness_PlacedWordRunsNext : State.reset.mem.wf = true ∧ decodeTableWord 16 0x5FFF = some (.endRun 2047) := by decide
theorem witness_RegisterFrame : (Instr.shiftl 1).mnemonic ∈ [Mnemonic.add, .sub, .clear, .or, .and, .shiftr, .shiftl] ∧
    exec (.shiftl 1) (st [] 1 4) = .next ((st [] 1 4).setAcc 2).advance := ⟨by decide, rfl⟩
theorem witness_BranchesFrame : (Instr.bge 9).mnemonic ∈ [Mnemonic.bge, .blt, .endRun] ∧ (Instr.bge 9).mnemonic ≠ .endRun ∧
    exec (.bge 9) (st [] 0x8000 4) = .next ((st [] 0x8000 4).setPc 9) := ⟨by decide, by decide, rfl⟩
theorem witness_EndFrame : (Instr.endRun 0).mnemonic ∈ [Mnemonic.bge, .blt, .endRun] ∧ (Instr.endRun 0).mnemonic = .endRun ∧
    exec (.endRun 0) (st [] 1 4) = .next ((st [] 1 4).setStatus .halted) := ⟨by decide, rfl, rfl⟩
theorem witness_StoreFrame : (st [1, 2] 7 0).mem.wf = true ∧ (0 : Nat) ≠ (Instr.store 1).operand ∧
    exec (.store 1) (st [1, 2] 7 0) = .next ((st [1, 2] 7 0).store 1 7).advance := ⟨by decide, by decide, rfl⟩
theorem witness_MemoryMutated : (st [0x1001, 2] 7 0).mem.wf = true ∧
    ∃ t, stepWith refMap (st [0x1001, 2] 7 0) = .next t ∧ t.mem.read? 1 ≠ (st [0x1001, 2] 7 0).mem.read? 1 :=
  ⟨by decide, _, rfl, by decide⟩
theorem witness_MemoryMutated_reset : 1 < ([0x1001, 2] : List Word).length := by decide
theorem witness_AccWritten : ∃ t, stepWith refMap (st [0x1800] 7 0) = .next t ∧ t.acc ≠ (st [0x1800] 7 0).acc :=
  ⟨_, rfl, by decide⟩
theorem witness_PcOfTheNextStep_running : ∃ t, stepWith refMap (st [0x4000] 0x8000 0) = .next t ∧ t.status = .running :=
  ⟨_, rfl, rfl⟩
theorem witness_PcOfTheNextStep_ended : ∃ t, stepWith refMap (st [0x5800] 7 0) = .next t ∧ t.status ≠ .running :=
  ⟨_, rfl, by decide⟩
theorem witness_HaltsExactlyAtEnd : ∃ t, stepWith refMap (st [0x5800] 7 0) = .next t ∧ t.status = .halted := ⟨_, rfl, rfl⟩
theorem witness_OneRecord_running : ∃ t, stepWith refMap (st [0x1800] 7 0) = .next t ∧ t.status = .running := ⟨_, rfl, rfl⟩
theorem witness_OneRecord_ended : ∃ t, stepWith refMap (st [0x8001] 7 0) = .next t ∧ t.status ≠ .running :=
  ⟨_, rfl, by decide⟩
/-- The END word stored and fetched. -/
theorem witness_StoredWord_instr : (st [0x1001, 2] 0x5800 0).mem.wf = true ∧ 1 < (st [0x1001, 2] 0x5800 0).mem.size ∧
    (∃ t, exec (.store 1) (st [0x1001, 2] 0x5800 0) = .next t ∧ t.pc = 1 ∧ t.status = .running) ∧
    decodeWith refMap (st [0x1001, 2] 0x5800 0).acc = .instr (.endRun 0) := ⟨by decide, by decide, ⟨_, rfl, rfl, rfl⟩, by decide⟩
theorem witness_StoredWord_unknown : (st [0x1001, 2] 0x8001 0).mem.wf = true ∧ 1 < (st [0x1001, 2] 0x8001 0).mem.size ∧
    (∃ t, exec (.store 1) (st [0x1001, 2] 0x8001 0) = .next t ∧ t.pc = 1 ∧ t.status = .running) ∧
    decodeWith refMap (st [0x1001, 2] 0x8001 0).acc = .unknown 16 := ⟨by decide, by decide, ⟨_, rfl, rfl, rfl⟩, by decide⟩
theorem witness_RunsRepeatSteps : ((st [0x5800] 7 0).setStatus .halted).status ≠ .running ∧
    ∃ t, stepWith refMap (runFor refMap 1 (st [0x1800, 0x5800] 7 0)) = .next t := ⟨by decide, _, rfl⟩
theorem witness_HostHasNoMoveInRun : (st [0x4000] 0 0).status = .running := rfl
/-- A state that no run from the empty image reaches: mid-program, with an ADD that will overflow. -/
theorem witness_StepKeepsInvariant : (st [0x0001, 0x4000] 0x4000 0).Inv refMap 0 ∧
    ∃ t, stepWith refMap (st [0x0001, 0x4000] 0x4000 0) = .next t ∧ t.status.isFaulted = true := by
  refine ⟨⟨by decide, by decide, fun r h => ?_, fun r h => ?_⟩, _, rfl, by decide⟩
  · exact absurd h (by simp [st, State.resetWith])
  · exact absurd h (by simp [st, State.resetWith])
theorem witness_RunsKeepInvariant : hostReset [0x1800, 0x5800] 5 = some (State.resetWith [0x1800, 0x5800] 5) := rfl

end Sys2Proof.Tests
end

