-- ==== Sys2Proof/Proofs/Scope.lean ====
section
/-! The statements of 00_scope.md: decode and encode are inverse (R9), a word is the `sm` of its sign and magnitude (R12),
and every step keeps the invariant of a state (R6). The facts they need about the encoder, `smAdd` and a step come first. -/

namespace Sys2Proof

/-! ### The encoder as arithmetic -/

/-- The encoder's two masks (30_encoding.md R50). -/
theorem toNat_encodeFields (op operand : Nat) :
    (encodeFields op operand).toNat = (op % 32) * 2048 + operand % 2048 := by
  have hop : op &&& 0x1F = op % 32 := Nat.and_two_pow_sub_one_eq_mod op 5
  have hoperand : operand &&& 0x7FF = operand % 2048 := Nat.and_two_pow_sub_one_eq_mod operand 11
  have hlt : operand % 2048 < 2 ^ 11 := Nat.mod_lt _ (by decide)
  rw [encodeFields, hop, hoperand, ← Nat.shiftLeft_add_eq_or_of_lt hlt, Nat.shiftLeft_eq, BitVec.toNat_ofNat]
  omega

theorem decodeOpcode_encodeFields (op operand : Nat) : decodeOpcode (encodeFields op operand) = op % 32 := by
  rw [decodeOpcode_eq, toNat_encodeFields]
  omega

theorem decodeOperand_encodeFields (op operand : Nat) : decodeOperand (encodeFields op operand) = operand % 2048 := by
  rw [decodeOperand_eq, toNat_encodeFields]
  omega

/-- Every word is the encoding of its two fields (30_encoding.md R51). -/
theorem encodeFields_decode (w : Word) : encodeFields (decodeOpcode w) (decodeOperand w) = w := by
  apply BitVec.eq_of_toNat_eq
  rw [toNat_encodeFields, decodeOpcode_eq, decodeOperand_eq]
  omega

/-- An instruction is its mnemonic with its operand (41_engine.md R75). -/
theorem Instr.ofMnemonic_mnemonic_operand (i : Instr) : Instr.ofMnemonic i.mnemonic i.operand = i := by
  cases i <;> rfl

/-! ### Decode and encode are inverse -/

/-- Settles O4: the fields of the encoded word are the opcode and the operand themselves, and an admissible map finds the
one mnemonic with that opcode. -/
theorem decodeInvertsEncode : Obligations.DecodeInvertsEncode := by
  intro m hm i hi
  have hop : decodeOpcode (encodeWith m i) = m i.mnemonic :=
    (decodeOpcode_encodeFields _ _).trans (Nat.mod_eq_of_lt (hm.lt_32 _))
  have hoperand : decodeOperand (encodeWith m i) = i.operand :=
    (decodeOperand_encodeFields _ _).trans (Nat.mod_eq_of_lt hi)
  refine decodeWith_eq_instr_iff.mpr ⟨i.mnemonic, (lookupOpcode_eq_some_iff hm).mpr hop.symm, ?_⟩
  rw [hoperand, Instr.ofMnemonic_mnemonic_operand]

/-- Settles O5: the decoded mnemonic's opcode and the operand are the two fields of the word, so encoding them gives the
word back. -/
theorem encodeInvertsDecode : Obligations.EncodeInvertsDecode := by
  intro m _ w i hd
  obtain ⟨k, hk, rfl⟩ := decodeWith_eq_instr_iff.mp hd
  constructor
  · rw [Instr.WellFormed, Instr.operand_ofMnemonic]
    exact decodeOperand_lt w
  · rw [encodeWith, Instr.mnemonic_ofMnemonic, Instr.operand_ofMnemonic, lookupOpcode_eq_some hk, encodeFields_decode]

end Sys2Proof

namespace Sys2Proof.Machine

/-! ### Sign and magnitude -/

/-- Every word is the `sm` of its sign and magnitude (00_scope.md R12). -/
theorem sm_sgn_mag (w : Word) : sm (sgn w) (mag w) = w :=
  word_ext (sgn_sm _ (mag_le w)) (mag_sm _ (mag_le w))

/-- Settles O11: from the arithmetic of `sgn`, `mag` and `sm` on `toNat`. -/
theorem signMagnitudeOfWord : Obligations.SignMagnitudeOfWord :=
  ⟨fun w => ⟨sgn_eq w, mag_eq w, sm_sgn_mag w⟩, fun s _ hn => ⟨sgn_sm s hn, mag_sm s hn⟩, rfl, rfl⟩

/-- When `sm_add` raises, and with which record (40_alu.md R65, R67). -/
theorem smAdd_eq_error_iff {a b : Word} {d : FaultDetail} :
    smAdd a b = .error d ↔ d = .arithmeticOverflow a b ∧ sgn a = sgn b ∧ 32767 < mag a + mag b := by
  unfold smAdd
  by_cases hs : sgn a = sgn b
  · by_cases hm : 32767 < mag a + mag b
    · simp [hs, hm, eq_comm]
    · simp [hs, hm]
  · simp only [if_neg hs]
    split_ifs <;> simp [hs]

/-! ### What a completed body leaves -/

theorem Completed.status_not_faulted {i : Instr} {s t : State} (hc : Completed i s t) (hs : s.status = .running) :
    t.status.isFaulted = false := by
  cases hc with
  | acc r _ => simp [hs, Status.isFaulted]
  | store k _ _ => simp [hs, Status.isFaulted]
  | bge k _ => split <;> simp [hs, Status.isFaulted]
  | blt k _ => split <;> simp [hs, Status.isFaulted]
  | endRun k _ => rfl

/-- No body emits: the trace port stands outside it (41_engine.md R77). -/
theorem Completed.trace_eq {i : Instr} {s t : State} (hc : Completed i s t) : t.trace = s.trace := by
  cases hc with
  | acc r _ => rfl
  | store k _ _ => rfl
  | bge k _ => split <;> rfl
  | blt k _ => split <;> rfl
  | endRun k _ => rfl

/-- Memory after a completed body: as it was, or with one cell written (10_state.md R22). -/
theorem Completed.mem_eq {i : Instr} {s t : State} (hc : Completed i s t) :
    t.mem = s.mem ∨ ∃ k, t.mem = s.mem.write k s.acc := by
  cases hc with
  | acc r _ => exact .inl rfl
  | store k _ _ => exact .inr ⟨k, rfl⟩
  | bge k _ => split <;> exact .inl rfl
  | blt k _ => split <;> exact .inl rfl
  | endRun k _ => exact .inl rfl

/-- How a completed body sets pc (10_state.md R18). -/
theorem Completed.pc_cases {i : Instr} {s t : State} (hc : Completed i s t) :
    t.pc = s.pc ∨ t.pc = s.pc + 1 ∨ t.pc = i.operand := by
  cases hc with
  | acc r _ => exact .inr (.inl rfl)
  | store k _ _ => exact .inr (.inl rfl)
  | bge k hi =>
    subst hi
    split
    · exact .inr (.inr rfl)
    · exact .inr (.inl rfl)
  | blt k hi =>
    subst hi
    split
    · exact .inr (.inr rfl)
    · exact .inr (.inl rfl)
  | endRun k _ => exact .inl rfl

theorem Completed.mem_wf {i : Instr} {s t : State} (hc : Completed i s t) (hwf : s.mem.wf = true) :
    t.mem.wf = true := by
  obtain h | ⟨k, h⟩ := hc.mem_eq
  · rwa [h]
  · rw [h]
    exact Memory.write_wf k s.acc hwf

theorem Completed.mem_size {i : Instr} {s t : State} (hc : Completed i s t) : t.mem.size = s.mem.size := by
  obtain h | ⟨k, h⟩ := hc.mem_eq
  · rw [h]
  · rw [h, Memory.write_size]

/-! ### What the trace port adds -/

/-- A raise emits no record (92_eei_decisions.md D11; log 15). -/
@[simp] theorem emitCompleted_raise (i : Instr) (s u : State) (d : FaultDetail) :
    emitCompleted i s (u.raise d) = u.raise d :=
  if_neg fun h => Bool.noConfusion h.2

/-- A record in the trace after a step was there before, or it is the step's own, of an instruction other than END
(41_engine.md R82). -/
theorem mem_trace_emitCompleted {i : Instr} {s t : State} {r : TraceRecord} (h : r ∈ (emitCompleted i s t).trace) :
    r ∈ t.trace ∨ i.mnemonic ≠ .endRun ∧ r = traceRecord i s t := by
  unfold emitCompleted at h
  split at h
  · rename_i hc
    rw [State.emit_trace, List.mem_append, List.mem_singleton] at h
    exact h.imp_right fun hr => ⟨hc.1, hr⟩
  · exact .inl h

/-! ### The fault record is true of the state it stands in -/

theorem State.recordCoherent_of_not_faulted {m : OpcodeMap} {s : State} (h : s.status.isFaulted = false) :
    s.RecordCoherent m := by
  intro r hr
  rw [hr] at h
  exact Bool.noConfusion h

theorem State.raise_fetch_recordCoherent (m : OpcodeMap) {s : State} (hge : s.mem.size ≤ s.pc) :
    (s.raise (.addressOutOfRange .fetch s.pc)).RecordCoherent m := by
  rintro r ⟨⟩
  exact ⟨rfl, rfl, rfl, hge, Memory.read?_of_ge hge⟩

theorem State.raise_unknown_recordCoherent {m : OpcodeMap} {s : State} {w : Word} {op : Nat}
    (hw : s.mem.read? s.pc = some w) (hd : decodeWith m w = .unknown op) :
    (s.raise (.unknownOpcode op)).RecordCoherent m := by
  obtain ⟨hop, hnone⟩ := decodeWith_eq_unknown_iff.mp hd
  rintro r ⟨⟩
  exact ⟨rfl, rfl, hnone, w, hw, hop.symm⟩

/-- The raise of a body, for each of its causes: for SUB the record's `b` is the flipped word (40_alu.md R66). -/
theorem State.raise_exec_recordCoherent {m : OpcodeMap} {s : State} {w : Word} {i : Instr} {d : FaultDetail}
    (hw : s.mem.read? s.pc = some w) (hd : decodeWith m w = .instr i) (hc : RaiseCause i s d) :
    (s.raise d).RecordCoherent m := by
  cases hc with
  | operand hm hge =>
    rintro r ⟨⟩
    exact ⟨rfl, rfl, hge, w, i, hw, hd, hm, rfl⟩
  | add k b d hi hr he =>
    subst hi
    obtain ⟨rfl, hsgn, hmag⟩ := smAdd_eq_error_iff.mp he
    rintro r ⟨⟩
    exact ⟨rfl, rfl, rfl, hsgn, hmag, w, k, b, hw, hr, .inl ⟨hd, rfl⟩⟩
  | sub k b d hi hr he =>
    subst hi
    obtain ⟨rfl, hsgn, hmag⟩ := smAdd_eq_error_iff.mp he
    rintro r ⟨⟩
    exact ⟨rfl, rfl, rfl, hsgn, hmag, w, k, b, hw, hr, .inr ⟨hd, rfl⟩⟩

/-! ### Every step keeps the invariant -/

/-- A raise keeps the invariant when its record is coherent, as it changes nothing but status (60_exceptions.md R97). -/
theorem State.Inv.raise {m : OpcodeMap} {startPc : Nat} {s : State} {d : FaultDetail} (hs : s.Inv m startPc)
    (hr : (s.raise d).RecordCoherent m) : (s.raise d).Inv m startPc :=
  ⟨hs.memWf, hs.pcBound, hr, hs.traced⟩

/-- The record of a completed step is of a fetched instruction other than END (41_engine.md R82). -/
theorem traceRecord_plausible {m : OpcodeMap} {s t : State} {w : Word} {i : Instr}
    (hw : s.mem.read? s.pc = some w) (hd : decodeWith m w = .instr i) (hi : i.mnemonic ≠ .endRun) :
    (traceRecord i s t).Plausible s.mem.size :=
  ⟨(Memory.read?_eq_some_iff.mp hw).1, (operand_of_decodeWith hd).trans_lt (decodeOperand_lt w), hi⟩

/-- A completed step keeps the invariant: the fetch bounds pc + 1 by N ≤ 2048, and the field's width bounds a branch
target. -/
theorem State.Inv.emitCompleted {m : OpcodeMap} {startPc : Nat} {s t : State} {w : Word} {i : Instr}
    (hs : s.Inv m startPc) (hrun : s.status = .running) (hw : s.mem.read? s.pc = some w)
    (hd : decodeWith m w = .instr i) (hc : Completed i s t) :
    (Machine.emitCompleted i s t).Inv m startPc where
  memWf := by
    rw [emitCompleted_mem]
    exact hc.mem_wf hs.memWf
  pcBound := by
    have hfetched : s.pc < s.mem.size := (Memory.read?_eq_some_iff.mp hw).1
    have hsize : s.mem.size ≤ 2048 := (Memory.wf_iff.mp hs.memWf).1
    have hoperand : i.operand < 2048 := (operand_of_decodeWith hd).trans_lt (decodeOperand_lt w)
    rw [emitCompleted_pc]
    apply le_max_of_le_left
    rcases hc.pc_cases with h | h | h <;> omega
  record := by
    apply State.recordCoherent_of_not_faulted
    rw [emitCompleted_status]
    exact hc.status_not_faulted hrun
  traced := by
    intro r hr
    rw [emitCompleted_mem, hc.mem_size]
    rcases mem_trace_emitCompleted hr with hold | ⟨hi, rfl⟩
    · exact hs.traced r (hc.trace_eq ▸ hold)
    · exact traceRecord_plausible hw hd hi

/-- Settles O58, by the causes of a step: the three that raise keep all but status, with a record true of the state; the
one that completes keeps memory canonical, pc in range and the trace plausible. -/
theorem stepKeepsInvariant : Obligations.StepKeepsInvariant := by
  intro m startPc s t hs hstep
  cases stepWith_next_cases hstep with
  | fetchFault hge => exact hs.raise (State.raise_fetch_recordCoherent m hge)
  | unknown w op hw hd => exact hs.raise (State.raise_unknown_recordCoherent hw hd)
  | executed w i u hw hd hu =>
    rcases exec_next_cases hu with hc | ⟨d, hcause, rfl⟩
    · exact hs.emitCompleted (running_of_stepWith hstep) hw hd hc
    · rw [emitCompleted_raise]
      exact hs.raise (State.raise_exec_recordCoherent hw hd hcause)

end Sys2Proof.Machine
end

/-! The statements of 10_state.md: what the instructions leave unchanged (R17), how a step sets pc (R18), that memory is
mutated only by STORE (R22), and that the trace affects no step (R26). The facts they need about a completed body, a
branch, a step and a run come first. -/

namespace Sys2Proof

theorem Instr.eq_branch_or_endRun {i : Instr} (hi : i.mnemonic ∈ [Mnemonic.bge, .blt, .endRun]) :
    ∃ k, i = .bge k ∨ i = .blt k ∨ i = .endRun k := by
  cases i <;> simp [Instr.mnemonic] at hi ⊢

end Sys2Proof

namespace Sys2Proof.Machine

/-! ### The comparisons of a branch -/

/-- A word is negative as an integer exactly when its sign is set and its magnitude is not 0 (40_alu.md R60). -/
theorem isNegativeNonzero_iff (w : Word) : isNegativeNonzero w = true ↔ toInt w < 0 := by
  rw [isNegativeNonzero, toInt_of_sgn]
  cases sgn w <;> simp [Nat.pos_iff_ne_zero]

theorem ltZero_iff (w : Word) : ltZero w = true ↔ toInt w < 0 := isNegativeNonzero_iff w

theorem geZero_iff (w : Word) : geZero w = true ↔ 0 ≤ toInt w := by
  rw [geZero, Bool.not_eq_true', ← Bool.not_eq_true, isNegativeNonzero_iff, not_lt]

/-- The next state of a branch differs in pc only (46_branch_halt.md R92, R93). -/
theorem State.branch_eq_setPc (s : State) (taken : Bool) (k : Nat) :
    (if taken then s.setPc k else s.advance) = s.setPc (if taken then k else s.pc + 1) := by
  cases taken <;> rfl

/-- BGE, said once (46_branch_halt.md R92). -/
theorem exec_bge (k : Nat) (s : State) :
    exec (.bge k) s = .next (s.setPc (if geZero s.acc then k else s.pc + 1)) := by
  rw [exec, execBge, complete_ok, State.branch_eq_setPc]

/-- BLT, said once (46_branch_halt.md R93). -/
theorem exec_blt (k : Nat) (s : State) :
    exec (.blt k) s = .next (s.setPc (if ltZero s.acc then k else s.pc + 1)) := by
  rw [exec, execBlt, complete_ok, State.branch_eq_setPc]

/-- END, said once (46_branch_halt.md R94). -/
theorem exec_endRun (k : Nat) (s : State) : exec (.endRun k) s = .next (s.setStatus .halted) := rfl

/-- When an instruction branches, by the accumulator it finds (46_branch_halt.md R92, R93). -/
abbrev Branches (i : Instr) (acc : Word) : Prop :=
  (i.mnemonic = .bge ∧ 0 ≤ toInt acc) ∨ (i.mnemonic = .blt ∧ toInt acc < 0)

@[simp] theorem branches_bge_iff (k : Nat) (acc : Word) : Branches (.bge k) acc ↔ 0 ≤ toInt acc := by
  simp [Branches, Instr.mnemonic]

@[simp] theorem branches_blt_iff (k : Nat) (acc : Word) : Branches (.blt k) acc ↔ toInt acc < 0 := by
  simp [Branches, Instr.mnemonic]

theorem Branches.mnemonic {i : Instr} {acc : Word} (h : Branches i acc) : i.mnemonic = .bge ∨ i.mnemonic = .blt :=
  h.imp And.left And.left

/-! ### What a completed body makes, by instruction -/

/-- The seven instructions that write acc make a state that differs in acc and pc only (10_state.md R17). -/
theorem Completed.eq_setAcc_advance {i : Instr} {s t : State} (hc : Completed i s t)
    (hi : i.mnemonic ∈ [Mnemonic.add, .sub, .clear, .or, .and, .shiftr, .shiftl]) :
    ∃ r, t = (s.setAcc r).advance := by
  cases hc with
  | acc r _ => exact ⟨r, rfl⟩
  | store k h _ => simp [h, Instr.mnemonic] at hi
  | bge k h => simp [h, Instr.mnemonic] at hi
  | blt k h => simp [h, Instr.mnemonic] at hi
  | endRun k h => simp [h, Instr.mnemonic] at hi

/-- A body that completes is STORE's, which writes acc to its operand, or it leaves memory (10_state.md R22). -/
theorem Completed.mem_eq_or_store {i : Instr} {s t : State} (hc : Completed i s t) :
    t.mem = s.mem ∨ ∃ k, i = .store k ∧ k < s.mem.size ∧ t.mem = s.mem.write k s.acc := by
  cases hc with
  | acc r _ => exact .inl rfl
  | store k hi hk => exact .inr ⟨k, hi, hk, rfl⟩
  | bge k _ =>
    rw [State.branch_eq_setPc]
    exact .inl rfl
  | blt k _ =>
    rw [State.branch_eq_setPc]
    exact .inl rfl
  | endRun k _ => exact .inl rfl

/-- How a completed body sets pc and status: END halts where it stands; any other goes on, at its operand if it branches
and at pc + 1 if not (10_state.md R18, R19). -/
theorem Completed.halts_or_goes_on {i : Instr} {s t : State} (hc : Completed i s t) :
    (t.status = .halted ∧ t.pc = s.pc) ∨
      (i.mnemonic ≠ .endRun ∧ t.status = s.status ∧
        t.pc = if Branches i s.acc then i.operand else s.pc + 1) := by
  cases hc with
  | acc r hi =>
    have hn : ¬ Branches i s.acc := by
      intro hb
      rcases hb.mnemonic with h | h <;> simp [h] at hi
    have hend : i.mnemonic ≠ .endRun := by
      intro h
      simp [h] at hi
    exact .inr ⟨hend, rfl, (if_neg hn).symm⟩
  | store k hi _ =>
    subst hi
    exact .inr ⟨by simp [Instr.mnemonic], rfl, by simp [Instr.mnemonic]⟩
  | bge k hi =>
    subst hi
    rw [State.branch_eq_setPc]
    refine .inr ⟨by simp [Instr.mnemonic], rfl, ?_⟩
    simp only [branches_bge_iff, geZero_iff, Instr.operand, State.setPc_pc]
  | blt k hi =>
    subst hi
    rw [State.branch_eq_setPc]
    refine .inr ⟨by simp [Instr.mnemonic], rfl, ?_⟩
    simp only [branches_blt_iff, ltZero_iff, Instr.operand, State.setPc_pc]
  | endRun k _ => exact .inl ⟨rfl, rfl⟩

/-! ### What the instructions leave unchanged -/

/-- Settles O46: a completed body writes acc and pc, and a raise writes status. -/
theorem registerInstructionsFrame : Obligations.RegisterInstructionsFrame := by
  intro i s t hi h
  rcases exec_next_cases h with hc | ⟨d, -, rfl⟩
  · obtain ⟨r, rfl⟩ := hc.eq_setAcc_advance hi
    exact ⟨rfl, fun _ => rfl, rfl, .inl rfl⟩
  · exact ⟨rfl, fun _ => rfl, rfl, .inr ⟨⟨_, rfl⟩, rfl, rfl⟩⟩

/-- Settles O47: none of the three can raise; a branch writes pc and END writes status. -/
theorem branchesAndEndFrame : Obligations.BranchesAndEndFrame := by
  intro i s t hi h
  obtain ⟨k, rfl | rfl | rfl⟩ := Instr.eq_branch_or_endRun hi
  · obtain rfl := Host.Outcome.next.inj ((exec_bge k s).symm.trans h)
    exact ⟨rfl, rfl, fun _ => rfl, rfl, fun _ => rfl, nofun⟩
  · obtain rfl := Host.Outcome.next.inj ((exec_blt k s).symm.trans h)
    exact ⟨rfl, rfl, fun _ => rfl, rfl, fun _ => rfl, nofun⟩
  · obtain rfl := Host.Outcome.next.inj ((exec_endRun k s).symm.trans h)
    exact ⟨rfl, rfl, fun _ => rfl, rfl, fun hne => absurd rfl hne, fun _ => ⟨rfl, rfl⟩⟩

/-! ### Memory after a step -/

/-- What a step does to memory, said once: nothing, or it fetched a STORE that wrote acc (10_state.md R22). -/
theorem stepWith_mem_eq_or_store {m : OpcodeMap} {s t : State} (h : stepWith m s = .next t) :
    t.mem = s.mem ∨ ∃ w k, s.mem.read? s.pc = some w ∧ decodeWith m w = .instr (.store k) ∧ k < s.mem.size ∧
      t.mem = s.mem.write k s.acc := by
  cases stepWith_next_cases h with
  | fetchFault _ => exact .inl rfl
  | unknown _ _ _ _ => exact .inl rfl
  | executed w i u hw hd hu =>
    rw [emitCompleted_mem]
    rcases exec_next_cases hu with hc | ⟨d, -, rfl⟩
    · rcases hc.mem_eq_or_store with hmem | ⟨k, rfl, hk, hmem⟩
      · exact .inl hmem
      · exact .inr ⟨w, k, hw, hd, hk, hmem⟩
    · exact .inl rfl

/-- Settles O49: a step that does not leave memory wrote acc to the operand of the STORE it fetched, and nowhere else. -/
theorem memoryMutatedOnlyByStore : Obligations.MemoryMutatedOnlyByStore := by
  constructor
  · intro m s t hwf h
    rcases stepWith_mem_eq_or_store h with hmem | ⟨w, k, hw, hd, hk, hmem⟩
    · rw [hmem]
      exact ⟨rfl, fun a ha => absurd rfl ha⟩
    · rw [hmem]
      refine ⟨Memory.write_size _ _ _, fun a ha => ?_⟩
      rw [Memory.read?_write hwf hk] at ha ⊢
      obtain rfl : a = k := by
        by_contra hne
        exact ha (if_neg hne)
      exact ⟨if_pos rfl, w, hw, hd⟩
  · intro image startPc i h
    exact (Memory.read?_ofImage image i).trans (List.getElem?_eq_getElem h)

/-! ### The pc after a step -/

theorem State.raise_not_running (s : State) (d : FaultDetail) : (s.raise d).status ≠ .running := by
  simp

/-- How a step sets pc and status, said once: it ends the run and leaves pc, or it goes on as the fetched instruction does
(10_state.md R18). -/
theorem stepWith_ends_or_goes_on {m : OpcodeMap} {s t : State} (h : stepWith m s = .next t) :
    (t.status ≠ .running ∧ t.pc = s.pc) ∨
      (t.status = .running ∧ ∃ w i, s.mem.read? s.pc = some w ∧ decodeWith m w = .instr i ∧ i.mnemonic ≠ .endRun ∧
        t.pc = if Branches i s.acc then i.operand else s.pc + 1) := by
  cases stepWith_next_cases h with
  | fetchFault _ => exact .inl ⟨s.raise_not_running _, rfl⟩
  | unknown _ _ _ _ => exact .inl ⟨s.raise_not_running _, rfl⟩
  | executed w i u hw hd hu =>
    rw [emitCompleted_status, emitCompleted_pc]
    rcases exec_next_cases hu with hc | ⟨d, -, rfl⟩
    · rcases hc.halts_or_goes_on with ⟨hstatus, hpc⟩ | ⟨hi, hstatus, hpc⟩
      · exact .inl ⟨by simp [hstatus], hpc⟩
      · exact .inr ⟨hstatus.trans (running_of_stepWith h), w, i, hw, hd, hi, hpc⟩
    · exact .inl ⟨s.raise_not_running d, rfl⟩

/-- Settles O51: the two cases of a step exclude each other by its status, and an instruction's operand is its word's
operand field. -/
theorem pcOfTheNextStep : Obligations.PcOfTheNextStep := by
  intro m s t h
  rcases stepWith_ends_or_goes_on h with ⟨hended, hpc⟩ | ⟨hrun, w, i, hw, hd, hi, hpc⟩
  · exact ⟨fun _ => hpc, fun hrun => absurd hrun hended⟩
  · rw [operand_of_decodeWith hd] at hpc
    exact ⟨fun hended => absurd hrun hended, fun _ => ⟨w, i, hw, hd, hi, hpc⟩⟩

/-! ### The trace -/

/-- The state with another trace. -/
def State.setTrace (s : State) (trace : List TraceRecord) : State := { s with trace := trace }

@[simp] theorem State.setTrace_acc (s : State) (l : List TraceRecord) : (s.setTrace l).acc = s.acc := rfl
@[simp] theorem State.setTrace_pc (s : State) (l : List TraceRecord) : (s.setTrace l).pc = s.pc := rfl
@[simp] theorem State.setTrace_mem (s : State) (l : List TraceRecord) : (s.setTrace l).mem = s.mem := rfl
@[simp] theorem State.setTrace_status (s : State) (l : List TraceRecord) : (s.setTrace l).status = s.status := rfl
@[simp] theorem State.setTrace_trace (s : State) (l : List TraceRecord) : (s.setTrace l).trace = l := rfl

/-- No body reads the trace, said of everything exec can answer (10_state.md R26). -/
theorem exec_setTrace_cases (i : Instr) (s : State) (l : List TraceRecord) :
    ∃ t, exec i s = .next t ∧ exec i (s.setTrace l) = .next (t.setTrace l) := by
  cases i with
  | add k =>
    simp only [exec, execAdd_eq, State.setTrace_mem, State.setTrace_acc]
    cases s.mem.read? k with
    | none => exact ⟨_, rfl, rfl⟩
    | some b =>
      dsimp only
      cases smAdd s.acc b <;> exact ⟨_, rfl, rfl⟩
  | sub k =>
    simp only [exec, execSub_eq, State.setTrace_mem, State.setTrace_acc]
    cases s.mem.read? k with
    | none => exact ⟨_, rfl, rfl⟩
    | some b =>
      dsimp only
      cases smSub s.acc b <;> exact ⟨_, rfl, rfl⟩
  | store k =>
    simp only [exec, execStore_eq, State.setTrace_mem, State.setTrace_acc]
    by_cases hk : k < s.mem.size
    · simp only [hk, if_true]
      exact ⟨_, rfl, rfl⟩
    · simp only [hk, if_false]
      exact ⟨_, rfl, rfl⟩
  | clear k => exact ⟨_, rfl, rfl⟩
  | or k =>
    simp only [exec, execOr_eq, State.setTrace_mem, State.setTrace_acc]
    cases s.mem.read? k <;> exact ⟨_, rfl, rfl⟩
  | and k =>
    simp only [exec, execAnd_eq, State.setTrace_mem, State.setTrace_acc]
    cases s.mem.read? k <;> exact ⟨_, rfl, rfl⟩
  | shiftr k => exact ⟨_, rfl, rfl⟩
  | shiftl k => exact ⟨_, rfl, rfl⟩
  | bge k => exact ⟨_, exec_bge k s, exec_bge k _⟩
  | blt k => exact ⟨_, exec_blt k s, exec_blt k _⟩
  | endRun k => exact ⟨_, exec_endRun k s, exec_endRun k _⟩

/-- The same, from an answer of exec. -/
theorem exec_setTrace {i : Instr} {s t : State} (h : exec i s = .next t) (l : List TraceRecord) :
    exec i (s.setTrace l) = .next (t.setTrace l) := by
  obtain ⟨t', ht', hl⟩ := exec_setTrace_cases i s l
  rw [h, Host.Outcome.next.injEq] at ht'
  exact ht' ▸ hl

/-- No answer of exec holds another trace: the trace port stands outside it (41_engine.md R77). -/
theorem exec_trace_eq {i : Instr} {s t : State} (h : exec i s = .next t) : t.trace = s.trace := by
  rcases exec_next_cases h with hc | ⟨d, -, rfl⟩
  · exact hc.trace_eq
  · rfl

/-- The records that the trace port emits at the end of a step of `i` from `s` to `t` (41_engine.md R82). -/
def emission (i : Instr) (s t : State) : List TraceRecord :=
  if i.mnemonic ≠ .endRun ∧ t.status.isFaulted = false then [traceRecord i s t] else []

theorem emitCompleted_eq_setTrace (i : Instr) (s t : State) :
    emitCompleted i s t = t.setTrace (t.trace ++ emission i s t) := by
  unfold emitCompleted emission
  split
  · rfl
  · rw [List.append_nil]
    rfl

/-- What is emitted does not depend on what was emitted before. -/
@[simp] theorem emission_setTrace (i : Instr) (s t : State) (l l' : List TraceRecord) :
    emission i (s.setTrace l) (t.setTrace l') = emission i s t := rfl

theorem stepWith_fetchFault {m : OpcodeMap} {s : State} (h : s.status = .running) (hge : s.mem.size ≤ s.pc) :
    stepWith m s = .next (s.raise (.addressOutOfRange .fetch s.pc)) := by
  simp only [stepWith_running h, fetchDecodeExecute, Memory.read?_of_ge hge]

theorem stepWith_unknown {m : OpcodeMap} {s : State} {w : Word} {op : Nat} (h : s.status = .running)
    (hw : s.mem.read? s.pc = some w) (hd : decodeWith m w = .unknown op) :
    stepWith m s = .next (s.raise (.unknownOpcode op)) := by
  simp only [stepWith_running h, fetchDecodeExecute, hw, hd]

/-- A step only appends to the trace, and from the same state with any other trace it takes the same step and appends the
same records (10_state.md R26). -/
theorem stepWith_setTrace {m : OpcodeMap} {s t : State} (h : stepWith m s = .next t) :
    ∃ emitted, t.trace = s.trace ++ emitted ∧
      ∀ l, stepWith m (s.setTrace l) = .next (t.setTrace (l ++ emitted)) := by
  have hrun := running_of_stepWith h
  cases stepWith_next_cases h with
  | fetchFault hge =>
    refine ⟨[], (List.append_nil _).symm, fun l => ?_⟩
    rw [List.append_nil]
    exact stepWith_fetchFault (s := s.setTrace l) hrun hge
  | unknown w op hw hd =>
    refine ⟨[], (List.append_nil _).symm, fun l => ?_⟩
    rw [List.append_nil]
    exact stepWith_unknown (s := s.setTrace l) hrun hw hd
  | executed w i u hw hd hu =>
    refine ⟨emission i s u, ?_, fun l => ?_⟩
    · rw [emitCompleted_eq_setTrace, State.setTrace_trace, exec_trace_eq hu]
    · rw [stepWith_decoded (s := s.setTrace l) hrun hw hd]
      simp only [executeTraced, exec_setTrace hu l, emitCompleted_eq_setTrace, emission_setTrace]
      rfl

/-! ### Runs -/

theorem runFor_succ_of_next {m : OpcodeMap} {s t : State} (h : stepWith m s = .next t) (n : Nat) :
    runFor m (n + 1) s = runFor m n t := by
  simp only [runFor, h]

/-- A run from a terminal state takes no step (41_engine.md R80, R81). -/
theorem runFor_of_not_running (m : OpcodeMap) (n : Nat) {s : State} (h : s.status ≠ .running) : runFor m n s = s := by
  cases n with
  | zero => rfl
  | succ n =>
    rw [runFor]
    split
    · exact absurd (running_of_stepWith ‹_›) h
    · rfl
    · rfl

/-- A run of any number of steps only appends to the trace, and with any other trace it is the same run and appends the
same records (10_state.md R26): `stepWith_setTrace` for each of its steps. -/
theorem runFor_setTrace (m : OpcodeMap) (n : Nat) (s : State) :
    ∃ emitted, (runFor m n s).trace = s.trace ++ emitted ∧
      ∀ l, runFor m n (s.setTrace l) = (runFor m n s).setTrace (l ++ emitted) := by
  induction n generalizing s with
  | zero => exact ⟨[], (List.append_nil _).symm, fun l => congrArg s.setTrace (List.append_nil l).symm⟩
  | succ n ih =>
    by_cases hrun : s.status = .running
    · obtain ⟨t, ht, -⟩ := stepWith_cases (m := m) hrun
      obtain ⟨first, htrace, hstep⟩ := stepWith_setTrace ht
      obtain ⟨rest, hrest, hrunFor⟩ := ih t
      refine ⟨first ++ rest, ?_, fun l => ?_⟩
      · rw [runFor_succ_of_next ht, hrest, htrace, List.append_assoc]
      · rw [runFor_succ_of_next ht, runFor_succ_of_next (hstep l), hrunFor, List.append_assoc]
    · refine ⟨[], ?_, fun l => ?_⟩
      · rw [runFor_of_not_running m _ hrun, List.append_nil]
      · rw [runFor_of_not_running m _ hrun, List.append_nil]
        exact runFor_of_not_running m _ (s := s.setTrace l) hrun

/-- Settles O54: reset empties the trace, and a run with another trace is the same run with that trace before the records
it emits. -/
theorem traceAffectsNothing : Obligations.TraceAffectsNothing := by
  refine ⟨fun _ _ => rfl, fun m n s other => ?_⟩
  obtain ⟨emitted, htrace, hrun⟩ := runFor_setTrace m n s
  exact ⟨emitted, htrace, hrun other⟩

end Sys2Proof.Machine

section
/-! The statements of 20_memory.md: the operand check (R31), what a write changes (R33), that a stored word is the one a
later fetch runs (R43), that the host changes nothing during a run (R45), and the dump (R46). -/

namespace Sys2Proof.Machine

/-! ### The operand check and the write of STORE -/

/-- An instruction that addresses memory raises before any access when its operand has no cell (20_memory.md R31). -/
theorem exec_of_operand_ge {i : Instr} {s : State} (hi : i.addressesMemory = true) (hge : s.mem.size ≤ i.operand) :
    exec i s = .next (s.raise (.addressOutOfRange .operand i.operand)) := by
  have hnone : s.mem.read? i.operand = none := Memory.read?_of_ge hge
  cases i with
  | add k => simp only [exec, execAdd_eq, show s.mem.read? k = none from hnone, Instr.operand]
  | sub k => simp only [exec, execSub_eq, show s.mem.read? k = none from hnone, Instr.operand]
  | store k => exact (execStore_eq k s).trans (if_neg (Nat.not_lt.mpr hge))
  | or k => simp only [exec, execOr_eq, show s.mem.read? k = none from hnone, Instr.operand]
  | and k => simp only [exec, execAnd_eq, show s.mem.read? k = none from hnone, Instr.operand]
  | clear _ | shiftr _ | shiftl _ | bge _ | blt _ | endRun _ => cases hi

/-- Settles O37: the raise of the operand check is the statement's post-fault state. -/
theorem operandBeyondMemoryFaults : Obligations.OperandBeyondMemoryFaults :=
  fun _ _ hi hge => exec_of_operand_ge hi hge

/-- STORE to a valid address writes acc there and goes on (43_store_clear.md R85). -/
theorem exec_store_of_lt {k : Nat} {s : State} (hk : k < s.mem.size) :
    exec (.store k) s = .next (s.store k s.acc).advance :=
  (execStore_eq k s).trans (if_pos hk)

/-- The memory that a STORE to a valid address leaves (20_memory.md R33). -/
theorem mem_of_exec_store {k : Nat} {s t : State} (hk : k < s.mem.size) (h : exec (.store k) s = .next t) :
    t.mem = s.mem.write k s.acc := by
  obtain rfl := Host.Outcome.next.inj ((exec_store_of_lt hk).symm.trans h)
  rfl

/-- STORE is the only user of a write: every other instruction leaves memory, whether it completes or raises. -/
theorem mem_of_exec_of_ne_store {i : Instr} {s t : State} (hi : ∀ k, i ≠ .store k) (h : exec i s = .next t) :
    t.mem = s.mem := by
  rcases exec_next_cases h with hc | ⟨d, -, rfl⟩
  · rcases hc.mem_eq_or_store with hmem | ⟨k, hstore, -⟩
    · exact hmem
    · exact absurd hstore (hi k)
  · rfl

/-- Settles O22: a read after a write, and what STORE and the other instructions leave of memory. -/
theorem memWriteSetsOneCell : Obligations.MemWriteSetsOneCell := by
  refine ⟨fun mem a v hwf ha => ⟨mem.write_size a v, ?_, fun b hb => ?_⟩,
    fun k s t hk h => mem_of_exec_store hk h, fun i s t hi h => mem_of_exec_of_ne_store hi h⟩
  · rw [Memory.read?_write hwf ha, if_pos rfl]
  · rw [Memory.read?_write hwf ha, if_neg hb]

/-! ### The fetch of a stored word -/

/-- Settles O55: a state with that memory and pc k reads acc's bits at pc, so its step decodes those bits. -/
theorem storedWordIsFetched : Obligations.StoredWordIsFetched := by
  intro m s t u k hwf hk hstore hmem hpc hrun
  have hfetched : u.mem.read? u.pc = some s.acc := by
    rw [hmem, hpc, mem_of_exec_store hk hstore, Memory.read?_write hwf hk, if_pos rfl]
  refine ⟨fun i hd => stepWith_decoded hrun hfetched hd, fun op hd => ?_⟩
  rw [stepWith_unknown hrun hfetched hd, State.raise_eq_afterFault, hfetched]

/-! ### The host during a run -/

theorem Session.after_of_running {s : State} (h : s.status = .running) : Session.after s = .inRun s := by
  rw [Session.after, h]

/-- The single-step transaction leaves the session as one step of the core's own makes it (70_reset_and_hazards.md R113). -/
theorem serveStep_session (m : OpcodeMap) (was : Session) {s : State} (h : s.status = .running) :
    (serveStep m was s).1 = Session.after (runFor m 1 s) := by
  obtain ⟨t, ht, -⟩ := stepWith_cases (m := m) h
  rw [runFor_succ_of_next ht, serveStep, ht]
  rfl

/-- Settles O57, request by request: a step is one step, a bounded run as many as its bound, and every other request is
not admitted during a run and takes none. -/
theorem hostHasNoMoveInRun : Obligations.HostHasNoMoveInRun := by
  intro m s q hrun
  have hnone : Session.inRun s = Session.after (runFor m 0 s) := (Session.after_of_running hrun).symm
  cases q with
  | reset image startPc => exact ⟨0, hnone⟩
  | step => exact ⟨1, serveStep_session m (.inRun s) hrun⟩
  | run bound => exact ⟨bound, rfl⟩
  | readFinalState => exact ⟨0, hnone⟩
  | dump => exact ⟨0, hnone⟩

/-! ### The dump -/

/-- The dump's entry at a valid address (20_memory.md R46). -/
theorem dump_getElem? (m : OpcodeMap) {mem : Memory} {a : Nat} (ha : a < mem.size) :
    (dump m mem)[a]? = some (dumpEntry m mem a) := by
  rw [dump, List.getElem?_map, List.getElem?_range ha, Option.map_some]

/-- Settles O27: one entry for each address below N, made of the word that a read there answers. -/
theorem dumpShowsEveryCell : Obligations.DumpShowsEveryCell := by
  intro m mem
  refine ⟨by rw [dump, List.length_map, List.length_range], fun a w hw => ?_⟩
  obtain ⟨ha, rfl⟩ := Memory.read?_eq_some_iff.mp hw
  exact dump_getElem? m ha

end Sys2Proof.Machine
end

section
/-! The statements of 30_encoding.md: the fields of a word (R49), the encoder (R50), their round trip (R51), the unassigned
opcodes (R55) and the words of an image's items (R57). -/

namespace Sys2Proof

/-! ### The fields of a word -/

theorem decodeOpcode_lt (w : Word) : decodeOpcode w < 32 := by
  rw [decodeOpcode_eq]
  exact Nat.div_lt_of_lt_mul w.isLt

theorem decodeOpcode_eq_extractLsb (w : Word) : decodeOpcode w = (w.extractLsb 15 11).toNat := by
  rw [BitVec.extractLsb_toNat]
  exact (Nat.mod_eq_of_lt (decodeOpcode_lt w)).symm

theorem decodeOperand_eq_extractLsb (w : Word) : decodeOperand w = (w.extractLsb 10 0).toNat := by
  rw [BitVec.extractLsb_toNat, Nat.shiftRight_zero]
  exact decodeOperand_eq w

/-- Settles O1: each field as bits, as arithmetic and with its range. -/
theorem fieldsOfEveryWord : Obligations.FieldsOfEveryWord := fun w =>
  ⟨decodeOpcode_eq_extractLsb w, decodeOpcode_eq w, decodeOpcode_lt w,
    decodeOperand_eq_extractLsb w, decodeOperand_eq w, decodeOperand_lt w⟩

/-! ### Fields and encoder -/

/-- Settles O2: the encoder as arithmetic. -/
theorem encoderMasksBothFields : Obligations.EncoderMasksBothFields := toNat_encodeFields

/-- Settles O3: the masks of the encoder leave an opcode and an operand that fit their fields as they are, and every word
is the encoding of its fields. -/
theorem fieldsRoundTrip : Obligations.FieldsRoundTrip := by
  refine ⟨fun op operand hop hoperand => ⟨?_, ?_⟩, encodeFields_decode⟩
  · rw [decodeOpcode_encodeFields, Nat.mod_eq_of_lt hop]
  · rw [decodeOperand_encodeFields, Nat.mod_eq_of_lt hoperand]

/-! ### The unassigned opcodes -/

theorem lookupOpcode_isSome_iff {m : OpcodeMap} {op : Nat} : (lookupOpcode m op).isSome ↔ ∃ k, m k = op := by
  rw [Option.isSome_iff_ne_none, Ne, lookupOpcode_eq_none_iff]
  exact not_forall_not

/-- The opcode values with a registry entry are the 11 values of the map (00_scope.md R9). -/
theorem assignedOpcodes_perm {m : OpcodeMap} (hm : m.Admissible) :
    ((List.range 32).filter (fun op => (lookupOpcode m op).isSome)).Perm (registryOrder.map m) := by
  have hvalues : (registryOrder.map m).Nodup := List.Nodup.map hm.injective (by decide)
  refine (List.perm_ext_iff_of_nodup (List.nodup_range.filter _) hvalues).mpr fun op => ?_
  rw [List.mem_filter, lookupOpcode_isSome_iff, List.mem_range, List.mem_map]
  constructor
  · rintro ⟨-, k, hk⟩
    exact ⟨k, mem_registryOrder k, hk⟩
  · rintro ⟨k, -, rfl⟩
    exact ⟨hm.lt_32 k, k, rfl⟩

/-- The 32 opcode values without the 11 that have an entry (30_encoding.md R55). -/
theorem unassignedOpcodes_length {m : OpcodeMap} (hm : m.Admissible) :
    ((List.range 32).filter (fun op => (lookupOpcode m op).isNone)).length = 21 := by
  have hassigned : ((List.range 32).filter (fun op => (lookupOpcode m op).isSome)).length = 11 :=
    (assignedOpcodes_perm hm).length_eq
  have hsplit := List.length_eq_length_filter_add (l := List.range 32) (fun op => (lookupOpcode m op).isSome)
  simp only [Option.not_isSome, List.length_range] at hsplit
  omega

/-- Only the opcode field decides whether a word is unknown (30_encoding.md R55). -/
theorem exists_decodeWith_eq_unknown_iff {m : OpcodeMap} {w : Word} :
    (∃ op, decodeWith m w = .unknown op) ↔ ∀ k, m k ≠ decodeOpcode w := by
  simp only [decodeWith_eq_unknown_iff, exists_eq_left]

/-- Settles O7: the count is what the map's 11 values leave of 32, and whether a word is unknown is a statement about its
opcode field alone. -/
theorem unassignedOpcodes : Obligations.UnassignedOpcodes := by
  intro m hm
  refine ⟨unassignedOpcodes_length hm, fun w hw => ?_, fun v w hvw => ?_⟩
  · exact decodeWith_eq_unknown_iff.mpr ⟨hw.symm, hm.ne_9⟩
  · rw [exists_decodeWith_eq_unknown_iff, exists_decodeWith_eq_unknown_iff, hvw]

/-! ### The words of an image's items -/

/-- The encoding of a mnemonic's opcode with an operand of the field decodes to that instruction (30_encoding.md R57). -/
theorem decodeWith_encodeFields {m : OpcodeMap} (hm : m.Admissible) (k : Mnemonic) {operand : Nat}
    (h : operand < 2048) : decodeWith m (encodeFields (m k) operand) = .instr (Instr.ofMnemonic k operand) := by
  have hdecode := decodeInvertsEncode m hm (Instr.ofMnemonic k operand)
    (by rwa [Instr.WellFormed, Instr.operand_ofMnemonic])
  rwa [encodeWith, Instr.mnemonic_ofMnemonic, Instr.operand_ofMnemonic] at hdecode

end Sys2Proof

namespace Sys2Proof.Machine

theorem sgn_fromInt (v : Int) : sgn (fromInt v) = decide (v < 0) := sgn_sm _ (by omega)

theorem mag_fromInt (v : Int) : mag (fromInt v) = v.natAbs % 32768 := mag_sm _ (by omega)

/-- The conversion reads back where the magnitude fits 15 bits (40_alu.md R64). -/
theorem toInt_fromInt {v : Int} (hlo : -32767 ≤ v) (hhi : v ≤ 32767) : toInt (fromInt v) = v := by
  rw [toInt_of_sgn, sgn_fromInt, mag_fromInt]
  by_cases hv : v < 0
  · rw [if_pos (decide_eq_true hv)]
    omega
  · rw [if_neg (by simpa using hv)]
    omega

/-- Settles O9, item by item: the two instruction forms by the decoder, a literal by the conversion, and a raw word is
itself. -/
theorem imageItemsReadBack : Obligations.ImageItemsReadBack := fun _ hm =>
  ⟨fun k _ h => decodeWith_encodeFields hm k h, fun k => decodeWith_encodeFields hm k (by decide),
    fun _ hlo hhi => toInt_fromInt hlo hhi, fun _ => rfl⟩

end Sys2Proof.Machine
end

section
/-! The statements of 40_alu.md: the integer value of a word (R63, R64), `sm_add` and `sm_sub` (R65 to R67, R72), the shifts
(R69, R70), OR and AND (R68), when each operation gives -0 (R62), the comparisons with zero (R60, R61), and what the
instructions make of them. -/

namespace Sys2Proof.Machine

/-! ### The two zeros and the integer value -/

theorem eq_posZero_iff {w : Word} : w = 0x0000 ↔ sgn w = false ∧ mag w = 0 := by
  constructor
  · rintro rfl
    decide
  · rintro ⟨hs, hm⟩
    exact word_ext hs hm

theorem eq_negZero_iff {w : Word} : w = 0x8000 ↔ sgn w = true ∧ mag w = 0 := by
  constructor
  · rintro rfl
    decide
  · rintro ⟨hs, hm⟩
    exact word_ext hs hm

theorem toInt_of_sgn_false {w : Word} (h : sgn w = false) : toInt w = mag w := by
  simp [toInt_of_sgn, h]

theorem toInt_of_sgn_true {w : Word} (h : sgn w = true) : toInt w = -(mag w : Int) := by
  simp [toInt_of_sgn, h]

theorem natAbs_toInt (w : Word) : (toInt w).natAbs = mag w := by
  cases h : sgn w with
  | false => rw [toInt_of_sgn_false h, Int.natAbs_natCast]
  | true => rw [toInt_of_sgn_true h, Int.natAbs_neg, Int.natAbs_natCast]

/-- Both zeros have value 0, and no other word (40_alu.md R63). -/
theorem toInt_eq_zero_iff {w : Word} : toInt w = 0 ↔ w = 0x0000 ∨ w = 0x8000 := by
  rw [← Int.natAbs_eq_zero, natAbs_toInt, eq_posZero_iff, eq_negZero_iff]
  cases sgn w <;> simp

/-- Settles O12: the value by its sign, its range by the bound on the magnitude, and the words of magnitude 0. -/
theorem integerValueOfWord : Obligations.IntegerValueOfWord := by
  refine ⟨fun w => ⟨toInt_of_sgn_false, toInt_of_sgn_true, ?_⟩, fun _ => toInt_eq_zero_iff⟩
  have habs := natAbs_toInt w
  have hle := mag_le w
  omega

/-- Settles O13: the fields of the converted word, and the round trip in the source's range. -/
theorem fromIntReadsBack : Obligations.FromIntReadsBack :=
  ⟨fun v => ⟨sgn_fromInt v, mag_fromInt v⟩, fun _ hlo hhi => toInt_fromInt hlo hhi, rfl⟩

/-! ### The sign flip of SUB -/

/-- The flip of bit 15 by sign and magnitude (40_alu.md R66). -/
theorem flip_eq_sm (w : Word) : w ^^^ 0x8000 = sm (!sgn w) (mag w) := by
  apply BitVec.eq_of_toNat_eq
  rw [sm_toNat _ (mag_le w)]
  exact toNat_flip w

theorem sgn_flip (w : Word) : sgn (w ^^^ 0x8000) = !sgn w := by
  rw [flip_eq_sm, sgn_sm _ (mag_le w)]

theorem mag_flip (w : Word) : mag (w ^^^ 0x8000) = mag w := by
  rw [flip_eq_sm, mag_sm _ (mag_le w)]

/-- The flip negates the integer value (40_alu.md R66). -/
theorem toInt_flip (w : Word) : toInt (w ^^^ 0x8000) = -toInt w := by
  rw [toInt_of_sgn, toInt_of_sgn, sgn_flip, mag_flip]
  cases sgn w <;> simp

/-! ### The cases of `sm_add` -/

theorem smAdd_of_sgn_eq {a b : Word} (hs : sgn a = sgn b) (hle : mag a + mag b ≤ 32767) :
    smAdd a b = .ok (sm (sgn a) (mag a + mag b)) := by
  rw [smAdd, if_pos hs, if_neg (Nat.not_lt.mpr hle)]

theorem smAdd_of_mag_gt {a b : Word} (hs : sgn a ≠ sgn b) (hgt : mag b < mag a) :
    smAdd a b = .ok (sm (sgn a) (mag a - mag b)) := by
  rw [smAdd, if_neg hs, if_pos hgt]

theorem smAdd_of_mag_lt {a b : Word} (hs : sgn a ≠ sgn b) (hlt : mag a < mag b) :
    smAdd a b = .ok (sm (sgn b) (mag b - mag a)) := by
  rw [smAdd, if_neg hs, if_neg hlt.asymm, if_pos hlt]

theorem smAdd_of_mag_eq {a b : Word} (hs : sgn a ≠ sgn b) (heq : mag a = mag b) : smAdd a b = .ok 0x0000 := by
  rw [smAdd, if_neg hs, if_neg heq.ge.not_gt, if_neg heq.le.not_gt]

theorem smAdd_of_overflow {a b : Word} (hs : sgn a = sgn b) (hgt : 32767 < mag a + mag b) :
    smAdd a b = .error (.arithmeticOverflow a b) :=
  smAdd_eq_error_iff.mpr ⟨rfl, hs, hgt⟩

/-- A sum that completes, by the sign and magnitude of its result: the cases of 40_alu.md R65 without the overflow. -/
inductive SmAddOk (a b r : Word) : Prop where
  | same (hs : sgn a = sgn b) (hsgn : sgn r = sgn a) (hmag : mag r = mag a + mag b)
  | left (hs : sgn a ≠ sgn b) (hgt : mag b < mag a) (hsgn : sgn r = sgn a) (hmag : mag r = mag a - mag b)
  | right (hs : sgn a ≠ sgn b) (hlt : mag a < mag b) (hsgn : sgn r = sgn b) (hmag : mag r = mag b - mag a)
  | cancel (hs : sgn a ≠ sgn b) (heq : mag a = mag b) (hr : r = 0x0000)

/-- What `sm_add` answers when it completes, said once. -/
theorem smAdd_ok_cases {a b r : Word} (h : smAdd a b = .ok r) : SmAddOk a b r := by
  have ha := mag_le a
  have hb := mag_le b
  by_cases hs : sgn a = sgn b
  · rcases Nat.lt_or_ge 32767 (mag a + mag b) with hgt | hle
    · exact nomatch (smAdd_of_overflow hs hgt).symm.trans h
    · obtain rfl := Except.ok.inj ((smAdd_of_sgn_eq hs hle).symm.trans h)
      exact .same hs (sgn_sm _ hle) (mag_sm _ hle)
  · rcases lt_trichotomy (mag a) (mag b) with hlt | heq | hgt
    · obtain rfl := Except.ok.inj ((smAdd_of_mag_lt hs hlt).symm.trans h)
      exact .right hs hlt (sgn_sm _ (by omega)) (mag_sm _ (by omega))
    · exact .cancel hs heq (Except.ok.inj ((smAdd_of_mag_eq hs heq).symm.trans h)).symm
    · obtain rfl := Except.ok.inj ((smAdd_of_mag_gt hs hgt).symm.trans h)
      exact .left hs hgt (sgn_sm _ (by omega)) (mag_sm _ (by omega))

/-- Settles O14: each case by its equation, and the sign and magnitude of an `sm` that fits 15 bits. -/
theorem smAddCases : Obligations.SmAddCases := by
  intro a b
  have ha := mag_le a
  have hb := mag_le b
  exact ⟨fun hs hle => ⟨_, smAdd_of_sgn_eq hs hle, sgn_sm _ hle, mag_sm _ hle⟩,
    smAdd_of_overflow,
    fun hs hgt => ⟨_, smAdd_of_mag_gt hs hgt, sgn_sm _ (by omega), mag_sm _ (by omega)⟩,
    fun hs hlt => ⟨_, smAdd_of_mag_lt hs hlt, sgn_sm _ (by omega), mag_sm _ (by omega)⟩,
    smAdd_of_mag_eq⟩

/-- Settles O16: a word and its flip differ in sign and have one magnitude, so their sum is +0. -/
theorem smSubFlipsTheSign : Obligations.SmSubFlipsTheSign :=
  ⟨fun b => ⟨sgn_flip b, mag_flip b⟩, fun _ _ => rfl,
    fun a => smAdd_of_mag_eq (Bool.eq_not.mp (sgn_flip a)).symm (mag_flip a).symm, rfl⟩

/-! ### The overflow -/

/-- When `sm_sub` raises, and with which record (40_alu.md R66, R67). -/
theorem smSub_eq_error_iff {a b : Word} {d : FaultDetail} :
    smSub a b = .error d ↔
      d = .arithmeticOverflow a (b ^^^ 0x8000) ∧ sgn a ≠ sgn b ∧ 32767 < mag a + mag b := by
  rw [smSub, smAdd_eq_error_iff, sgn_flip, mag_flip, Bool.eq_not]

/-- A same-sign sum that completes does not wrap (40_alu.md R67). -/
theorem mag_of_smAdd_ok {a b r : Word} (h : smAdd a b = .ok r) (hs : sgn a = sgn b) : mag r = mag a + mag b := by
  cases smAdd_ok_cases h with
  | same _ _ hmag => exact hmag
  | left hne | right hne | cancel hne => exact absurd hs hne

/-- SHIFTR, said once (45_shift.md R89). -/
theorem exec_shiftr (n : Nat) (s : State) : exec (.shiftr n) s = .next (s.setAcc (smShr s.acc n)).advance := rfl

/-- SHIFTL, said once (45_shift.md R90). -/
theorem exec_shiftl (n : Nat) (s : State) : exec (.shiftl n) s = .next (s.setAcc (smShl s.acc n)).advance := rfl

/-- Settles O17: the two overflow conditions, a sum that completes, and the next states of the shifts. -/
theorem overflowExactly : Obligations.OverflowExactly :=
  ⟨fun _ _ _ => smAdd_eq_error_iff, fun _ _ _ => smSub_eq_error_iff, fun _ _ _ => mag_of_smAdd_ok,
    fun n s => ⟨_, _, exec_shiftr n s, rfl, exec_shiftl n s, rfl⟩⟩

/-! ### Sums and differences as integers -/

/-- A sum that completes is the integer sum (40_alu.md R72 (a)). -/
theorem toInt_of_smAdd_ok {a b r : Word} (h : smAdd a b = .ok r) : toInt r = toInt a + toInt b := by
  rw [toInt_of_sgn, toInt_of_sgn (w := a), toInt_of_sgn (w := b)]
  cases smAdd_ok_cases h with
  | same hs hsgn hmag =>
    rw [hsgn, hmag, ← hs]
    split_ifs <;> omega
  | left hs hgt hsgn hmag =>
    rw [hsgn, hmag, Bool.eq_not.mpr hs]
    cases sgn b <;> simp <;> omega
  | right hs hlt hsgn hmag =>
    rw [hsgn, hmag, Bool.eq_not.mpr hs]
    cases sgn b <;> simp <;> omega
  | cancel hs heq hr =>
    obtain ⟨hsgn, hmag⟩ := eq_posZero_iff.mp hr
    rw [hsgn, hmag, heq, Bool.eq_not.mpr hs]
    cases sgn b <;> simp

/-- A difference that completes is the integer difference (40_alu.md R72 (b)). -/
theorem toInt_of_smSub_ok {a b r : Word} (h : smSub a b = .ok r) : toInt r = toInt a - toInt b := by
  rw [sub_eq_add_neg, ← toInt_flip]
  exact toInt_of_smAdd_ok h

theorem natAbs_toInt_add_of_sgn_eq {a b : Word} (hs : sgn a = sgn b) :
    (toInt a + toInt b).natAbs = mag a + mag b := by
  rw [toInt_of_sgn, toInt_of_sgn, hs]
  split_ifs <;> omega

theorem natAbs_toInt_add_le_of_sgn_ne {a b : Word} (hs : sgn a ≠ sgn b) : (toInt a + toInt b).natAbs ≤ 32767 := by
  have ha := mag_le a
  have hb := mag_le b
  rw [toInt_of_sgn, toInt_of_sgn, Bool.eq_not.mpr hs]
  cases sgn b <;> simp <;> omega

/-- `sm_add` raises exactly when the integer sum does not fit (40_alu.md R72 (c)). -/
theorem exists_smAdd_eq_error_iff {a b : Word} :
    (∃ d, smAdd a b = .error d) ↔ 32767 < (toInt a + toInt b).natAbs := by
  simp only [smAdd_eq_error_iff, exists_eq_left]
  by_cases hs : sgn a = sgn b
  · rw [natAbs_toInt_add_of_sgn_eq hs, and_iff_right hs]
  · have hle := natAbs_toInt_add_le_of_sgn_ne hs
    exact iff_of_false (fun h => hs h.1) (Nat.not_lt.mpr hle)

/-- Settles O18: the integer value of a result in each case of the sum, with the flip as negation. -/
theorem addSubMatchIntegers : Obligations.AddSubMatchIntegers := fun _ _ =>
  ⟨fun _ => toInt_of_smAdd_ok, fun _ => toInt_of_smSub_ok, exists_smAdd_eq_error_iff⟩

/-! ### The shifts, and when each operation gives -0 -/

theorem sgn_smShr (a : Word) (n : Nat) : sgn (smShr a n) = sgn a :=
  sgn_sm _ ((Nat.shiftRight_le _ _).trans (mag_le a))

theorem mag_smShr (a : Word) (n : Nat) : mag (smShr a n) = mag a / 2 ^ n := by
  rw [smShr, mag_sm _ ((Nat.shiftRight_le _ _).trans (mag_le a)), Nat.shiftRight_eq_div_pow]

theorem sgn_smShl (a : Word) (n : Nat) : sgn (smShl a n) = sgn a := sgn_sm _ (by omega)

theorem mag_smShl (a : Word) (n : Nat) : mag (smShl a n) = mag a * 2 ^ n % 32768 := by
  rw [smShl, mag_sm _ (by omega), Nat.shiftLeft_eq]

/-- A sum is -0 only where both operands are: another zero sum is of different signs, and +0 (40_alu.md R62). -/
theorem smAdd_eq_negZero_iff {a b : Word} : smAdd a b = .ok 0x8000 ↔ a = 0x8000 ∧ b = 0x8000 := by
  constructor
  · intro h
    cases smAdd_ok_cases h with
    | same hs hsgn hmag =>
      have hzero : mag a + mag b = 0 := hmag.symm
      have hsa : sgn a = true := hsgn.symm
      exact ⟨eq_negZero_iff.mpr ⟨hsa, by omega⟩, eq_negZero_iff.mpr ⟨hs ▸ hsa, by omega⟩⟩
    | left _ hgt _ hmag =>
      have hzero : mag a - mag b = 0 := hmag.symm
      omega
    | right _ hlt _ hmag =>
      have hzero : mag b - mag a = 0 := hmag.symm
      omega
    | cancel _ _ hr => exact absurd hr (by decide)
  · rintro ⟨rfl, rfl⟩
    rfl

/-- A difference is -0 only where the second operand's flip is -0 (40_alu.md R62, R66). -/
theorem smSub_eq_negZero_iff {a b : Word} : smSub a b = .ok 0x8000 ↔ a = 0x8000 ∧ b = 0x0000 := by
  rw [smSub, smAdd_eq_negZero_iff, eq_negZero_iff (w := b ^^^ 0x8000), sgn_flip, mag_flip, eq_posZero_iff,
    Bool.not_eq_true']

/-- Settles O19: -0 is the word with its sign set and magnitude 0, and each operation's sign and magnitude are known. -/
theorem negativeZeroOnlyWhereNamed : Obligations.NegativeZeroOnlyWhereNamed := by
  refine ⟨fun _ _ => smAdd_eq_negZero_iff, fun _ _ => smSub_eq_negZero_iff, fun a n => ?_, fun a n => ?_, fun v => ?_⟩
  · rw [eq_negZero_iff, sgn_smShr, mag_smShr]
  · rw [eq_negZero_iff, sgn_smShl, mag_smShl]
  · rw [eq_negZero_iff, sgn_fromInt, mag_fromInt, decide_eq_true_iff]

/-! ### The comparisons with zero, and the branches -/

/-- Settles O20: the comparisons as those of the integer value, of which 0 ≤ n and n < 0 exclude each other. -/
theorem comparisonsWithZero : Obligations.ComparisonsWithZero := fun w =>
  ⟨isNegativeNonzero_iff w, geZero_iff w, ltZero_iff w, by rw [geZero_iff, ltZero_iff, not_lt]⟩

/-- Settles O35: a branch sets pc only, by a comparison of the integer value. -/
theorem branchesComplete : Obligations.BranchesComplete := by
  intro s k
  constructor
  · rw [exec_bge, if_congr (geZero_iff s.acc) rfl rfl]
    rfl
  · rw [exec_blt, if_congr (ltZero_iff s.acc) rfl rfl]
    rfl

/-! ### ADD and SUB that overflow -/

theorem exec_add_of_error {s : State} {k : Nat} {b : Word} {d : FaultDetail} (hr : s.mem.read? k = some b)
    (he : smAdd s.acc b = .error d) : exec (.add k) s = .next (s.raise d) := by
  simp only [exec, execAdd_eq, hr, he]

theorem exec_sub_of_error {s : State} {k : Nat} {b : Word} {d : FaultDetail} (hr : s.mem.read? k = some b)
    (he : smSub s.acc b = .error d) : exec (.sub k) s = .next (s.raise d) := by
  simp only [exec, execSub_eq, hr, he]

/-- Settles O38: the overflow of the sum, or of the sum with the flipped word, is raised, and a raise is the statement's
post-fault state. -/
theorem addSubOverflowFaults : Obligations.AddSubOverflowFaults := fun _ _ _ hr hgt =>
  ⟨fun hs => exec_add_of_error hr (smAdd_of_overflow hs hgt),
    fun hs => exec_sub_of_error hr (smSub_eq_error_iff.mpr ⟨rfl, hs, hgt⟩)⟩

/-! ### OR and AND -/

theorem getLsbD_smOr (a b : Word) (i : Nat) : (smOr a b).getLsbD i = (a.getLsbD i || b.getLsbD i) :=
  BitVec.getLsbD_or

theorem getLsbD_smAnd (a b : Word) (i : Nat) : (smAnd a b).getLsbD i = (a.getLsbD i && b.getLsbD i) :=
  BitVec.getLsbD_and

/-- Settles O21: bit by bit, of which the sign is bit 15. -/
theorem bitwiseOnAllBits : Obligations.BitwiseOnAllBits :=
  ⟨fun a b i => ⟨getLsbD_smOr a b i, getLsbD_smAnd a b i⟩,
    fun a b => ⟨getLsbD_smOr a b 15, getLsbD_smAnd a b 15⟩, rfl, rfl, rfl⟩

theorem exec_or_of_read {s : State} {k : Nat} {b : Word} (hr : s.mem.read? k = some b) :
    exec (.or k) s = .next (s.setAcc (smOr s.acc b)).advance := by
  simp only [exec, execOr_eq, hr]

theorem exec_and_of_read {s : State} {k : Nat} {b : Word} (hr : s.mem.read? k = some b) :
    exec (.and k) s = .next (s.setAcc (smAnd s.acc b)).advance := by
  simp only [exec, execAnd_eq, hr]

/-- Settles O32: the two meanings for an operand that reads a word. -/
theorem orAndComplete : Obligations.OrAndComplete := fun _ _ _ hr =>
  ⟨exec_or_of_read hr, exec_and_of_read hr⟩

end Sys2Proof.Machine
end

section
/-! The statements of 41_engine.md: the registry (R73), the decoder's resolution of an opcode (R75), the step with its trace
port (R77, R82), when a step is taken (R80), and runs (R81). The word a load places, what a completed body makes of status,
and how runs compose come before the statements that need them. -/

namespace Sys2Proof

/-! ### The registry and the decoder -/

/-- Settles O6: an admissible map's lookup finds the one mnemonic with the opcode, or none. -/
theorem decodeResolvesTheOpcode : Obligations.DecodeResolvesTheOpcode := fun _ hm _ =>
  ⟨fun k hk => decodeWith_eq_instr_iff.mpr ⟨k, (lookupOpcode_eq_some_iff hm).mpr hk, rfl⟩,
    fun hnone => decodeWith_eq_unknown_iff.mpr ⟨rfl, hnone⟩⟩

/-- The table's decoder is the decoder on the table's word (log 1). -/
theorem decodeTableWord_eq_some_iff {nbits w : Nat} {i : Instr} :
    decodeTableWord nbits w = some i ↔ decodeWith opcodeMap (tableWord nbits w) = .instr i := by
  rw [decodeTableWord, decode]
  cases decodeWith opcodeMap (tableWord nbits w) <;> simp

end Sys2Proof

namespace Sys2Proof.Machine

/-- Settles O10: a field of the registry's descriptors, listed, is that field of the descriptor of each mnemonic in order. -/
theorem registryOfElevenDescriptors : Obligations.RegistryOfElevenDescriptors := by
  intro m
  refine ⟨?_, ?_, by decide, mem_registryOrder, fun _ _ _ => rfl⟩
  · rw [registry, List.map_map]
    rfl
  · rw [registry, List.map_map]
    rfl

/-! ### A step -/

theorem executeTraced_of_next {i : Instr} {s t : State} (h : exec i s = .next t) :
    executeTraced i s = .next (emitCompleted i s t) := by
  rw [executeTraced, h]

/-- Settles O43: the step of a decoded word is `executeTraced`, whose port is the statement's. -/
theorem stepRunsDecodedInstruction : Obligations.StepRunsDecodedInstruction := by
  refine ⟨fun m s w i hrun hw hd => ?_, fun _ => rfl⟩
  obtain ⟨t, ht, -⟩ := exec_cases i s
  rw [stepWith_decoded hrun hw hd, executeTraced_of_next ht, ht]
  rfl

/-- Settles O44: a step answers a next state from Running only, and from Running always. -/
theorem stepsExactlyWhenRunning : Obligations.StepsExactlyWhenRunning := by
  intro m s
  constructor
  · rintro ⟨t, ht⟩
    exact running_of_stepWith ht
  · intro hrun
    obtain ⟨t, ht, -⟩ := stepWith_cases (m := m) hrun
    exact ⟨t, ht⟩

/-! ### A word placed at pc -/

theorem Memory.read?_write_self {m : Memory} (hwf : m.wf = true) {a : Nat} (ha : a < m.size) (v : Word) :
    (m.write a v).read? a = some v := by
  rw [Memory.read?_write hwf ha, if_pos rfl]

@[simp] theorem State.placeAtPc_acc (s : State) (w : Word) : (s.placeAtPc w).acc = s.acc := rfl
@[simp] theorem State.placeAtPc_status (s : State) (w : Word) : (s.placeAtPc w).status = .running := rfl
@[simp] theorem State.placeAtPc_trace (s : State) (w : Word) : (s.placeAtPc w).trace = s.trace := rfl

/-- The word placed is the one the next step fetches, whether pc had a cell or a load gave it one (log 2). -/
theorem State.placeAtPc_fetch {s : State} (w : Word) (hwf : s.mem.wf = true) :
    (s.placeAtPc w).mem.read? (s.placeAtPc w).pc = some w := by
  by_cases hpc : s.pc < s.mem.size
  · simp only [State.placeAtPc, if_pos hpc]
    exact Memory.read?_write_self hwf hpc w
  · have hloaded : (if s.pc < Config.maxMem then s.pc else 0) < (s.mem.grow Config.maxMem).size := by
      apply lt_max_of_lt_right
      split
      · assumption
      · decide
    simp only [State.placeAtPc, if_neg hpc]
    exact Memory.read?_write_self (Memory.grow_wf le_rfl hwf) hloaded w

/-- Settles O45: the placed state is Running and fetches the table's word, so its step runs what that word decodes to. -/
theorem placedWordRunsNext : Obligations.PlacedWordRunsNext := by
  intro s w i hwf hi
  have hd : decodeWith opcodeMap (tableWord 16 w) = .instr i := decodeTableWord_eq_some_iff.mp hi
  have hstep : step (s.withFetchWord 16 w) = executeTraced i (s.withFetchWord 16 w) :=
    stepWith_decoded (State.placeAtPc_status s _) (State.placeAtPc_fetch _ hwf) hd
  obtain ⟨t, ht, -⟩ := exec_cases i (s.withFetchWord 16 w)
  exact ⟨State.placeAtPc_wf _ hwf, State.placeAtPc_acc s _, State.placeAtPc_trace s _, t, ht,
    hstep.trans (executeTraced_of_next ht)⟩

/-! ### The record of a step -/

/-- END halts, and every other body that completes leaves status (10_state.md R19). -/
theorem Completed.status_eq {i : Instr} {s t : State} (hc : Completed i s t) :
    t.status = if i.mnemonic = .endRun then .halted else s.status := by
  cases hc with
  | acc r hi =>
    have hne : i.mnemonic ≠ .endRun := by
      intro h
      simp [h] at hi
    exact (if_neg hne).symm
  | store k hi _ =>
    subst hi
    rfl
  | bge k hi =>
    subst hi
    rw [State.branch_eq_setPc]
    rfl
  | blt k hi =>
    subst hi
    rw [State.branch_eq_setPc]
    rfl
  | endRun k hi =>
    subst hi
    rfl

/-- A completed body emits one record, unless it is END's (41_engine.md R82; 92_eei_decisions.md D11). -/
theorem Completed.emission_eq {i : Instr} {s t : State} (hc : Completed i s t) (hs : s.status = .running) :
    emission i s t = if i.mnemonic = .endRun then [] else [traceRecord i s t] := by
  simp [emission, hc.status_not_faulted hs]

/-- What a step emits, said once: it ends the run and emits nothing, or it goes on and emits the record of the fetched
instruction (41_engine.md R82). -/
theorem stepWith_ends_or_emits {m : OpcodeMap} {s t : State} (h : stepWith m s = .next t) :
    (t.status ≠ .running ∧ t.trace = s.trace) ∨
      (t.status = .running ∧ ∃ w i, s.mem.read? s.pc = some w ∧ decodeWith m w = .instr i ∧
        t.trace = s.trace ++ [traceRecord i s t]) := by
  have hrun := running_of_stepWith h
  cases stepWith_next_cases h with
  | fetchFault _ => exact .inl ⟨s.raise_not_running _, rfl⟩
  | unknown _ _ _ _ => exact .inl ⟨s.raise_not_running _, rfl⟩
  | executed w i u hw hd hu =>
    rcases exec_next_cases hu with hc | ⟨d, -, rfl⟩
    · rw [emitCompleted_status, hc.status_eq, emitCompleted_eq_setTrace, State.setTrace_trace, hc.trace_eq,
        hc.emission_eq hrun]
      by_cases hend : i.mnemonic = .endRun
      · rw [if_pos hend, if_pos hend]
        exact .inl ⟨nofun, List.append_nil _⟩
      · rw [if_neg hend, if_neg hend]
        exact .inr ⟨hrun, w, i, hw, hd, rfl⟩
    · rw [emitCompleted_raise]
      exact .inl ⟨s.raise_not_running d, rfl⟩

/-- Settles O53: the two cases of a step exclude each other by its status, and the record's operand is the word's operand
field. -/
theorem oneRecordPerCompletedStep : Obligations.OneRecordPerCompletedStep := by
  intro m s t h
  rcases stepWith_ends_or_emits h with ⟨hended, htrace⟩ | ⟨hrun, w, i, hw, hd, htrace⟩
  · exact ⟨fun _ => htrace, fun hrun => absurd hrun hended⟩
  · rw [traceRecord, operand_of_decodeWith hd] at htrace
    exact ⟨fun hended => absurd hrun hended, fun _ => ⟨w, i, hw, hd, htrace⟩⟩

/-! ### Runs compose -/

/-- A run can be cut and resumed (41_engine.md R81; 60_exceptions.md R102). -/
theorem runFor_add (m : OpcodeMap) (j k : Nat) (s : State) : runFor m (j + k) s = runFor m k (runFor m j s) := by
  induction j generalizing s with
  | zero => rw [Nat.zero_add, runFor]
  | succ j ih =>
    by_cases hrun : s.status = .running
    · obtain ⟨t, ht, -⟩ := stepWith_cases (m := m) hrun
      rw [Nat.add_right_comm, runFor_succ_of_next ht, runFor_succ_of_next ht, ih]
    · rw [runFor_of_not_running m _ hrun, runFor_of_not_running m _ hrun, runFor_of_not_running m _ hrun]

/-- Settles O56: runs compose, a terminal state takes no step, and a run of n + 1 steps is n steps and then one. -/
theorem runsRepeatSteps : Obligations.RunsRepeatSteps := by
  intro m s
  refine ⟨fun j k => runFor_add m j k s, fun n hs => runFor_of_not_running m n hs, fun n t ht => ?_⟩
  rw [runFor_add, runFor_succ_of_next ht, runFor]

end Sys2Proof.Machine
end

section
/-! The statement of 43_store_clear.md on CLEAR (R86). -/

namespace Sys2Proof.Machine

/-- CLEAR always completes: its body has no operand check, so nothing of it can raise (43_store_clear.md R86). -/
theorem exec_clear (k : Nat) (s : State) : exec (.clear k) s = .next (s.setAcc 0x0000).advance := rfl

/-- Settles O31: acc set to +0 and then pc advanced is the state with those two fields changed. -/
theorem clearCompletes : Obligations.ClearCompletes := fun s k => exec_clear k s

end Sys2Proof.Machine
end

section
/-! The statements of 45_shift.md: SHIFTR (R89) and SHIFTL (R90), for every count. What a count of 0 and a count of 15 or
more make of a word comes first, from the sign and magnitude of a shifted word. -/

namespace Sys2Proof.Machine

/-! ### A count of 0 -/

theorem smShr_zero (a : Word) : smShr a 0 = a := by
  apply word_ext (sgn_smShr a 0)
  rw [mag_smShr, Nat.pow_zero, Nat.div_one]

theorem smShl_zero (a : Word) : smShl a 0 = a := by
  apply word_ext (sgn_smShl a 0)
  rw [mag_smShl, Nat.pow_zero, Nat.mul_one, Nat.mod_eq_of_lt (Nat.lt_succ_of_le (mag_le a))]

/-! ### A count of 15 or more (92_eei_decisions.md D19) -/

/-- A magnitude is below 2^15, so its quotient by 2^n is zero. -/
theorem mag_smShr_of_ge {n : Nat} (a : Word) (hn : 15 ≤ n) : mag (smShr a n) = 0 := by
  have hpow : 2 ^ 15 ≤ 2 ^ n := Nat.pow_le_pow_right (by decide) hn
  have hlt : mag a < 2 ^ 15 := Nat.lt_succ_of_le (mag_le a)
  rw [mag_smShr, Nat.div_eq_of_lt (hlt.trans_le hpow)]

/-- The product is a multiple of 2^15, so its low 15 bits are zero. -/
theorem mag_smShl_of_ge {n : Nat} (a : Word) (hn : 15 ≤ n) : mag (smShl a n) = 0 := by
  have hdvd : 2 ^ 15 ∣ mag a * 2 ^ n := (Nat.pow_dvd_pow 2 hn).mul_left (mag a)
  rw [mag_smShl]
  exact Nat.mod_eq_zero_of_dvd hdvd

/-! ### The instructions -/

/-- Settles O33: acc becomes the word shifted right, whose sign, magnitude and values at the two ends of the count are
known. -/
theorem shiftrCompletes : Obligations.ShiftrCompletes := by
  intro s n
  refine ⟨smShr s.acc n, exec_shiftr n s, sgn_smShr s.acc n, mag_smShr s.acc n, ?_, mag_smShr_of_ge s.acc⟩
  rintro rfl
  exact smShr_zero s.acc

/-- Settles O34: acc becomes the word shifted left, whose sign, magnitude and values at the two ends of the count are
known. -/
theorem shiftlCompletes : Obligations.ShiftlCompletes := by
  intro s n
  refine ⟨smShl s.acc n, exec_shiftl n s, sgn_smShl s.acc n, mag_smShl s.acc n, ?_, mag_smShl_of_ge s.acc⟩
  rintro rfl
  exact smShl_zero s.acc

end Sys2Proof.Machine
end

section
/-! The statements of 46_branch_halt.md: a branch beyond memory (R91) and END (R94). -/

namespace Sys2Proof.Machine

/-! ### A branch beyond memory -/

theorem exec_bge_taken {s : State} (k : Nat) (h : geZero s.acc = true) : exec (.bge k) s = .next (s.setPc k) := by
  rw [exec_bge, if_pos h]

theorem exec_blt_taken {s : State} (k : Nat) (h : ltZero s.acc = true) : exec (.blt k) s = .next (s.setPc k) := by
  rw [exec_blt, if_pos h]

/-- In every state BGE or BLT is taken, for their conditions are complementary (40_alu.md R61). -/
theorem exists_branch_taken (s : State) (k : Nat) :
    ∃ i ∈ [Instr.bge k, Instr.blt k], exec i s = .next (s.setPc k) := by
  rcases le_or_gt 0 (toInt s.acc) with hge | hlt
  · exact ⟨.bge k, by simp, exec_bge_taken k ((geZero_iff s.acc).mpr hge)⟩
  · exact ⟨.blt k, by simp, exec_blt_taken k ((ltZero_iff s.acc).mpr hlt)⟩

/-- The step of a state whose pc has no cell, with the whole state it leaves (60_exceptions.md R96, R97). -/
theorem stepWith_of_pc_ge {m : OpcodeMap} {s : State} (h : s.status = .running) (hge : s.mem.size ≤ s.pc) :
    stepWith m s = .next (s.afterFault none (.addressOutOfRange .fetch s.pc)) := by
  rw [stepWith_fetchFault h hge, State.raise_of_no_cell s _ (Memory.read?_of_ge hge)]

/-- Settles O42: the branch that is taken sets pc to its target without a check, so the next fetch finds no cell. -/
theorem branchBeyondMemoryFaultsAtFetch : Obligations.BranchBeyondMemoryFaultsAtFetch := by
  intro m s k hrun hge
  obtain ⟨i, hi, htaken⟩ := exists_branch_taken s k
  exact ⟨i, hi, s.setPc k, htaken, rfl, hrun, stepWith_of_pc_ge (s := s.setPc k) hrun hge⟩

/-! ### END -/

/-- END's step emits no record (92_eei_decisions.md D11). -/
theorem executeTraced_endRun (k : Nat) (s : State) : executeTraced (.endRun k) s = .next (s.setStatus .halted) := by
  rw [executeTraced_of_next (exec_endRun k s), emitCompleted, if_neg (fun h => h.1 rfl)]

/-- No step is taken from a terminal state (41_engine.md R80). -/
theorem stepWith_ne_next_of_not_running (m : OpcodeMap) {s : State} (h : s.status ≠ .running) (u : State) :
    stepWith m s ≠ .next u :=
  fun hstep => h (running_of_stepWith hstep)

/-- Settles O36: END's body writes status only, its step is that body, and the state it leaves is not Running. -/
theorem endCompletes : Obligations.EndCompletes := by
  refine ⟨fun s k => exec_endRun k s, fun m s w k hrun hw hd => ⟨?_, stepWith_ne_next_of_not_running m nofun⟩⟩
  rw [stepWith_decoded hrun hw hd, executeTraced_endRun]
  rfl

end Sys2Proof.Machine
end

section
/-! The statements of 60_exceptions.md: the order of a step's checks (R99), that a fault is precise (R97, R98), what STORE
leaves unchanged whether it completes or raises (R97), that a run halts exactly at END (R109), and the fault codes (R95).
How a step ends, and the step of a body that raises, come before the statements that need them. -/

namespace Sys2Proof

theorem Instr.eq_endRun_of_mnemonic {i : Instr} (h : i.mnemonic = .endRun) : ∃ k, i = .endRun k := by
  cases i with
  | endRun k => exact ⟨k, rfl⟩
  | _ => cases h

end Sys2Proof

namespace Sys2Proof.Machine

/-! ### The order of the checks -/

/-- The step of an instruction whose body raises, with the whole state it leaves (60_exceptions.md R96, R97). -/
theorem stepWith_of_exec_raise {m : OpcodeMap} {s : State} {w : Word} {i : Instr} {d : FaultDetail}
    (h : s.status = .running) (hw : s.mem.read? s.pc = some w) (hd : decodeWith m w = .instr i)
    (he : exec i s = .next (s.raise d)) : stepWith m s = .next (s.afterFault (some w) d) := by
  rw [stepWith_decoded h hw hd, executeTraced_of_next he, emitCompleted_raise, State.raise_eq_afterFault, hw]

/-- Settles O40: a fetch or a decode that fails raises before any body runs, and the checks of a body raise in it, the
operand's before the addition reads a word. -/
theorem checksInOrder : Obligations.ChecksInOrder := by
  refine fun m s hrun => ⟨stepWith_of_pc_ge hrun, fun w hw => ⟨fun op hd => ?_, fun i hd hi hge => ?_,
    fun k b hd hr hs hgt => ?_, fun k b hd hr hs hgt => ?_⟩⟩
  · rw [stepWith_unknown hrun hw hd, State.raise_eq_afterFault, hw]
  · exact stepWith_of_exec_raise hrun hw hd (exec_of_operand_ge hi hge)
  · exact stepWith_of_exec_raise hrun hw hd (exec_add_of_error hr (smAdd_of_overflow hs hgt))
  · exact stepWith_of_exec_raise hrun hw hd (exec_sub_of_error hr (smSub_eq_error_iff.mpr ⟨rfl, hs, hgt⟩))

/-! ### How a step ends -/

/-- A step ends in a raise from its own start state, whichever phase it fails in, or with a completed body and the trace
port (41_engine.md R77; 60_exceptions.md R97). -/
theorem stepWith_raises_or_completes {m : OpcodeMap} {s t : State} (h : stepWith m s = .next t) :
    (∃ d, t = s.raise d) ∨
      ∃ w i u, s.mem.read? s.pc = some w ∧ decodeWith m w = .instr i ∧ Completed i s u ∧ t = emitCompleted i s u := by
  cases stepWith_next_cases h with
  | fetchFault _ => exact .inl ⟨_, rfl⟩
  | unknown _ _ _ _ => exact .inl ⟨_, rfl⟩
  | executed w i u hw hd hu =>
    rcases exec_next_cases hu with hc | ⟨d, -, rfl⟩
    · exact .inr ⟨w, i, u, hw, hd, hc, rfl⟩
    · exact .inl ⟨d, emitCompleted_raise i s s d⟩

/-- Settles O41: a step that completes does not leave Faulted, so the step is a raise from its start state, which writes
status only. -/
theorem faultsArePrecise : Obligations.FaultsArePrecise := by
  intro m s t r hrun h hr
  rcases stepWith_raises_or_completes h with ⟨d, rfl⟩ | ⟨w, i, u, -, -, hc, rfl⟩
  · obtain rfl := Status.faulted.inj hr
    exact ⟨rfl, rfl, rfl, stepWith_ne_next_of_not_running m (s.raise_not_running d)⟩
  · have hnot : u.status.isFaulted = false := hc.status_not_faulted hrun
    rw [← emitCompleted_status i s, hr] at hnot
    cases hnot

/-! ### What STORE leaves unchanged -/

/-- Settles O48, by the operand check: a valid address is the one cell written, and any other is a raise. -/
theorem storeFrame : Obligations.StoreFrame := by
  intro k s t hwf h
  rcases Nat.lt_or_ge k s.mem.size with hk | hge
  · obtain rfl := Host.Outcome.next.inj ((exec_store_of_lt hk).symm.trans h)
    exact ⟨rfl, Memory.write_size _ _ _, rfl, fun a ha => (Memory.read?_write hwf hk _ a).trans (if_neg ha),
      .inl ⟨rfl, hk⟩⟩
  · obtain rfl := Host.Outcome.next.inj ((exec_of_operand_ge (i := .store k) rfl hge).symm.trans h)
    exact ⟨rfl, rfl, rfl, fun _ _ => rfl, .inr ⟨⟨_, rfl⟩, hge, rfl, fun _ => rfl⟩⟩

/-! ### The end of a run -/

/-- Settles O52: only END's body halts, for a raise faults and every other body leaves Running; and END's body cannot
raise. -/
theorem haltsExactlyAtEnd : Obligations.HaltsExactlyAtEnd := by
  intro m s t h
  have hrun := running_of_stepWith h
  constructor
  · intro hhalt
    rcases stepWith_raises_or_completes h with ⟨d, rfl⟩ | ⟨w, i, u, hw, hd, hc, rfl⟩
    · cases hhalt
    · have hend : i.mnemonic = .endRun := by
        by_contra hne
        rw [emitCompleted_status, hc.status_eq, if_neg hne, hrun] at hhalt
        cases hhalt
      obtain ⟨k, rfl⟩ := Instr.eq_endRun_of_mnemonic hend
      exact ⟨w, k, hw, hd⟩
  · rintro ⟨w, k, hw, hd⟩
    rw [stepWith_decoded hrun hw hd, executeTraced_endRun] at h
    obtain rfl := Host.Outcome.next.inj h
    rfl

/-! ### The fault codes -/

@[simp] theorem FaultRecord.code_unknownOpcode (pc : Nat) (word : Option Word) (op : Nat) :
    (FaultRecord.mk pc word (.unknownOpcode op)).code = 1 := rfl
@[simp] theorem FaultRecord.code_arithmeticOverflow (pc : Nat) (word : Option Word) (a b : Word) :
    (FaultRecord.mk pc word (.arithmeticOverflow a b)).code = 2 := rfl
@[simp] theorem FaultRecord.code_addressOutOfRange (pc : Nat) (word : Option Word) (c : AddressCause) (a : Nat) :
    (FaultRecord.mk pc word (.addressOutOfRange c a)).code = 3 := rfl

/-- Settles O39: each kind of detail has its own code. -/
theorem faultCodes : Obligations.FaultCodes := by
  rintro ⟨pc, word, detail⟩
  cases detail with
  | unknownOpcode op => simp
  | arithmeticOverflow a b => simp
  | addressOutOfRange c a => simp

end Sys2Proof.Machine
end

section
/-! The statements of 70_reset_and_hazards.md: the state that reset sets (R110), which IMAGE and START_PC it admits (R111),
and that every run from it keeps the invariant. The fields of the reset state, the two answers of the host's reset and the
induction over a run come first. -/

namespace Sys2Proof.Machine

/-! ### The reset state -/

@[simp] theorem State.resetWith_acc (image : List Word) (startPc : Nat) : (State.resetWith image startPc).acc = 0x0000 := rfl
@[simp] theorem State.resetWith_pc (image : List Word) (startPc : Nat) : (State.resetWith image startPc).pc = startPc := rfl
@[simp] theorem State.resetWith_mem (image : List Word) (startPc : Nat) :
    (State.resetWith image startPc).mem = Memory.ofImage image := rfl
@[simp] theorem State.resetWith_status (image : List Word) (startPc : Nat) :
    (State.resetWith image startPc).status = .running := rfl
@[simp] theorem State.resetWith_trace (image : List Word) (startPc : Nat) : (State.resetWith image startPc).trace = [] := rfl

@[simp] theorem Memory.ofImage_size (image : List Word) : (Memory.ofImage image).size = image.length := rfl

/-! ### The host's reset -/

/-- What an admitted reset answers, said once: the image fits, and the state is the one R110 lists. -/
theorem hostReset_eq_some_iff {image : List Word} {startPc : Nat} {s : State} :
    hostReset image startPc = some s ↔ image.length ≤ 2048 ∧ State.resetWith image startPc = s := by
  rw [hostReset, Option.ite_none_right_eq_some, Option.some.injEq]

/-- A reset is refused for an over-long image only, whatever the start address (92_eei_decisions.md D24). -/
theorem hostReset_eq_none_iff {image : List Word} {startPc : Nat} :
    hostReset image startPc = none ↔ 2048 < image.length := by
  simp [hostReset]

/-- Settles O24: the admitted image's reset state, field by field; its memory reads as the image. -/
theorem resetSetsEveryElement : Obligations.ResetSetsEveryElement := fun image startPc hlen =>
  ⟨State.resetWith image startPc, hostReset_eq_some_iff.mpr ⟨hlen, rfl⟩, State.resetWith_acc image startPc,
    State.resetWith_pc image startPc, Memory.ofImage_size image, Memory.read?_ofImage image,
    State.resetWith_status image startPc, State.resetWith_trace image startPc⟩

/-- Settles O25: an over-long image fails the admission check; from a start at or above the image's length the reset state
is Running with no cell at pc, so its step is the fetch fault. -/
theorem resetAdmission : Obligations.ResetAdmission :=
  ⟨fun _ _ hlong => hostReset_eq_none_iff.mpr hlong,
    fun _ image startPc hge => stepWith_of_pc_ge (State.resetWith_status image startPc) hge⟩

/-! ### Every state of a run -/

/-- The reset state of an admitted image meets the invariant: its memory is canonical, pc is START_PC itself, and there is
no fault record and no trace yet. -/
theorem State.resetWith_inv (m : OpcodeMap) {image : List Word} (startPc : Nat) (h : image.length ≤ 2048) :
    (State.resetWith image startPc).Inv m startPc where
  memWf := Memory.ofImage_wf h
  pcBound := le_max_right 2048 startPc
  record := State.recordCoherent_of_not_faulted rfl
  traced := List.forall_mem_nil _

/-- The induction over a run, said once: what every step keeps, a run of any number of steps keeps (41_engine.md R81). -/
theorem runFor_keeps {m : OpcodeMap} {P : State → Prop} (hstep : ∀ s t, P s → stepWith m s = .next t → P t)
    (n : Nat) {s : State} (hs : P s) : P (runFor m n s) := by
  induction n generalizing s with
  | zero => exact hs
  | succ n ih =>
    by_cases hrun : s.status = .running
    · obtain ⟨t, ht, -⟩ := stepWith_cases (m := m) hrun
      rw [runFor_succ_of_next ht]
      exact ih (hstep s t hs ht)
    · rwa [runFor_of_not_running m _ hrun]

/-- Settles O59: the reset state meets the invariant and every step keeps it (O58), so every state of the run meets it. -/
theorem runsKeepInvariant : Obligations.RunsKeepInvariant := by
  intro m image startPc s n hreset
  obtain ⟨hlen, rfl⟩ := hostReset_eq_some_iff.mp hreset
  exact runFor_keeps (stepKeepsInvariant m startPc) n (State.resetWith_inv m startPc hlen)

end Sys2Proof.Machine
end

section
/-! The remaining statements: the spec's own words decode under REF_MAP (30_encoding.md R54), `sm_add` is commutative
(40_alu.md R65), memories in canonical form that read alike are equal (log 3), ADD, SUB and STORE complete (42_add_sub.md
R83, R84; 43_store_clear.md R85), acc has seven writers (10_state.md R17), and the reset state meets the invariant. -/

namespace Sys2Proof

/-! ### The words of the reference assignment -/

/-- A word whose opcode is a mnemonic's under REF_MAP decodes to that instruction (41_engine.md R75). -/
theorem decode_of_assigned {w : Word} (k : Mnemonic) (h : refMap k = decodeOpcode w) :
    decode w = .instr (Instr.ofMnemonic k (decodeOperand w)) :=
  (decodeResolvesTheOpcode opcodeMap opcodeMap_admissible w).1 k h

/-- A word whose opcode the lookup does not find under REF_MAP decodes to the marker (41_engine.md R75). -/
theorem decode_of_unassigned {w : Word} (h : lookupOpcode refMap (decodeOpcode w) = none) :
    decode w = .unknown (decodeOpcode w) :=
  (decodeResolvesTheOpcode opcodeMap opcodeMap_admissible w).2 (lookupOpcode_eq_none_iff.mp h)

/-- Settles O8: each word by its opcode field, which REF_MAP gives to the mnemonic named here, or, for the last two words,
to none. -/
theorem sampleWordsDecode : Obligations.SampleWordsDecode :=
  ⟨decode_of_assigned .add rfl, decode_of_assigned .sub rfl, decode_of_assigned .store rfl,
    decode_of_assigned .clear rfl, decode_of_assigned .clear rfl, decode_of_assigned .or rfl,
    decode_of_assigned .and rfl, decode_of_assigned .shiftr rfl, decode_of_assigned .shiftl rfl,
    decode_of_assigned .bge rfl, decode_of_assigned .blt rfl, decode_of_assigned .endRun rfl,
    decode_of_assigned .endRun rfl, decode_of_unassigned rfl, decode_of_unassigned rfl⟩

end Sys2Proof

namespace Sys2Proof.Machine

/-! ### `sm_add` is commutative -/

/-- Swapping the operands swaps the two cases in which one magnitude is the larger, and keeps the result of each. -/
theorem smAdd_ok_comm {a b r : Word} (h : smAdd a b = .ok r) : smAdd b a = .ok r := by
  cases smAdd_ok_cases h with
  | same hs hsgn hmag =>
    have hle : mag b + mag a ≤ 32767 := Nat.add_comm (mag a) (mag b) ▸ hmag ▸ mag_le r
    rw [smAdd_of_sgn_eq hs.symm hle, ← hs, Nat.add_comm, ← hsgn, ← hmag, sm_sgn_mag]
  | left hs hgt hsgn hmag => rw [smAdd_of_mag_lt hs.symm hgt, ← hsgn, ← hmag, sm_sgn_mag]
  | right hs hlt hsgn hmag => rw [smAdd_of_mag_gt hs.symm hlt, ← hsgn, ← hmag, sm_sgn_mag]
  | cancel hs heq hr => rw [smAdd_of_mag_eq hs.symm heq.symm, hr]

/-- The overflow's condition is symmetric; its record holds the operands in their order. -/
theorem smAdd_overflow_comm {a b : Word} (h : smAdd a b = .error (.arithmeticOverflow a b)) :
    smAdd b a = .error (.arithmeticOverflow b a) := by
  obtain ⟨-, hs, hgt⟩ := smAdd_eq_error_iff.mp h
  exact smAdd_of_overflow hs.symm (Nat.add_comm (mag a) (mag b) ▸ hgt)

/-- Settles O15: each direction is the other with the operands swapped. -/
theorem smAddCommutes : Obligations.SmAddCommutes := fun _ _ =>
  ⟨fun _ => ⟨smAdd_ok_comm, smAdd_ok_comm⟩, smAdd_overflow_comm, smAdd_overflow_comm⟩

/-! ### Memories that read alike -/

theorem lookupCell_cons_self (a : Nat) (x : Word) (rest : List (Nat × Word)) : lookupCell ((a, x) :: rest) a = x :=
  if_pos rfl

theorem lookupCell_cons_of_ne {a b : Nat} (x : Word) (rest : List (Nat × Word)) (h : a ≠ b) :
    lookupCell ((b, x) :: rest) a = lookupCell rest a :=
  if_neg h

/-- Two canonical lists differ at the first listed address of one when the other lists only higher addresses: there the
one holds a listed word, the other none. -/
theorem lookupCell_head_ne {size lo lo' a : Nat} {x : Word} {rest cells : List (Nat × Word)}
    (hwf : cellsWf size lo ((a, x) :: rest) = true) (hwf' : cellsWf size lo' cells = true) (ha : a < lo') :
    lookupCell ((a, x) :: rest) a ≠ lookupCell cells a := by
  obtain ⟨-, -, hx, -⟩ := cellsWf_cons.mp hwf
  rwa [lookupCell_cons_self, lookupCell_below hwf' ha]

/-- What two canonical lists with one first address and equal lookups hold after it has equal lookups too. -/
theorem lookupCell_tail_eq {size lo lo' a : Nat} {x y : Word} {rest rest' : List (Nat × Word)}
    (hwf : cellsWf size lo ((a, x) :: rest) = true) (hwf' : cellsWf size lo' ((a, y) :: rest') = true)
    (h : ∀ c < size, lookupCell ((a, x) :: rest) c = lookupCell ((a, y) :: rest') c) :
    ∀ c < size, lookupCell rest c = lookupCell rest' c := by
  obtain ⟨-, -, -, hrest⟩ := cellsWf_cons.mp hwf
  obtain ⟨-, -, -, hrest'⟩ := cellsWf_cons.mp hwf'
  intro c hc
  by_cases hca : c = a
  · rw [lookupCell_below hrest (by omega), lookupCell_below hrest' (by omega)]
  · have hcons := h c hc
    rwa [lookupCell_cons_of_ne x rest hca, lookupCell_cons_of_ne y rest' hca] at hcons

/-- A canonical list of cells is determined by the words it holds below N (log 3). -/
theorem cells_ext {size : Nat} : ∀ {cells cells' : List (Nat × Word)} {lo lo' : Nat},
    cellsWf size lo cells = true → cellsWf size lo' cells' = true →
      (∀ c < size, lookupCell cells c = lookupCell cells' c) → cells = cells'
  | [], [], _, _, _, _, _ => rfl
  | [], (b, y) :: rest', _, _, _, hwf', h => by
    obtain ⟨-, hb, -, -⟩ := cellsWf_cons.mp hwf'
    exact absurd (h b hb).symm (lookupCell_head_ne (lo' := b + 1) hwf' rfl (Nat.lt_succ_self b))
  | (a, x) :: rest, [], _, _, hwf, _, h => by
    obtain ⟨-, ha, -, -⟩ := cellsWf_cons.mp hwf
    exact absurd (h a ha) (lookupCell_head_ne (lo' := a + 1) hwf rfl (Nat.lt_succ_self a))
  | (a, x) :: rest, (b, y) :: rest', _, _, hwf, hwf', h => by
    obtain ⟨-, ha, hx, hrest⟩ := cellsWf_cons.mp hwf
    obtain ⟨-, hb, hy, hrest'⟩ := cellsWf_cons.mp hwf'
    rcases lt_trichotomy a b with hab | rfl | hba
    · exact absurd (h a ha) (lookupCell_head_ne hwf (cellsWf_cons.mpr ⟨le_rfl, hb, hy, hrest'⟩) hab)
    · have hword := h a ha
      rw [lookupCell_cons_self, lookupCell_cons_self] at hword
      rw [hword, cells_ext hrest hrest' (lookupCell_tail_eq hwf hwf' h)]
    · exact absurd (h b hb).symm (lookupCell_head_ne hwf' (cellsWf_cons.mpr ⟨le_rfl, ha, hx, hrest⟩) hba)

/-- Settles O23: equal reads below N are equal lookups, which determine the list of cells. -/
theorem equalReadsEqualMemories : Obligations.EqualReadsEqualMemories := by
  rintro ⟨size, cells⟩ ⟨size', cells'⟩ hp hq (rfl : size = size') hread
  have hword : ∀ c < size, lookupCell cells c = lookupCell cells' c := by
    intro c hc
    have hc' := hread c
    rw [Memory.read?_of_lt hc, Memory.read?_of_lt hc] at hc'
    exact Option.some.inj hc'
  exact congrArg (Memory.mk size) (cells_ext (Memory.wf_iff.mp hp).2 (Memory.wf_iff.mp hq).2 hword)

/-! ### ADD and SUB that complete -/

/-- `sm_add` completes where the overflow's condition fails (40_alu.md R67). -/
theorem exists_smAdd_eq_ok {a b : Word} (h : sgn a = sgn b → mag a + mag b ≤ 32767) : ∃ r, smAdd a b = .ok r := by
  cases hadd : smAdd a b with
  | ok r => exact ⟨r, rfl⟩
  | error d =>
    obtain ⟨-, hs, hgt⟩ := smAdd_eq_error_iff.mp hadd
    exact absurd (h hs) (Nat.not_le.mpr hgt)

/-- `sm_sub` completes where the overflow's condition fails (40_alu.md R66, R67). -/
theorem exists_smSub_eq_ok {a b : Word} (h : sgn a ≠ sgn b → mag a + mag b ≤ 32767) : ∃ r, smSub a b = .ok r :=
  exists_smAdd_eq_ok fun hs => by
    rw [sgn_flip] at hs
    rw [mag_flip]
    exact h (Bool.eq_not.mp hs)

theorem exec_add_of_ok {s : State} {k : Nat} {b r : Word} (hr : s.mem.read? k = some b)
    (hadd : smAdd s.acc b = .ok r) : exec (.add k) s = .next (s.setAcc r).advance := by
  simp only [exec, execAdd_eq, hr, hadd]

theorem exec_sub_of_ok {s : State} {k : Nat} {b r : Word} (hr : s.mem.read? k = some b)
    (hsub : smSub s.acc b = .ok r) : exec (.sub k) s = .next (s.setAcc r).advance := by
  simp only [exec, execSub_eq, hr, hsub]

/-- Settles O28: the sum completes, is the integer sum, and is what ADD writes to acc. -/
theorem addCompletes : Obligations.AddCompletes := by
  intro s k b hr hfits
  obtain ⟨r, hadd⟩ := exists_smAdd_eq_ok hfits
  exact ⟨r, hadd, toInt_of_smAdd_ok hadd, exec_add_of_ok hr hadd⟩

/-- Settles O29: the sum with the flipped word completes, is the integer difference, and is what SUB writes to acc. -/
theorem subCompletes : Obligations.SubCompletes := by
  intro s k b hr hfits
  obtain ⟨r, hsub⟩ := exists_smSub_eq_ok hfits
  exact ⟨r, hsub, toInt_of_smSub_ok hsub, exec_sub_of_ok hr hsub⟩

/-! ### STORE that completes -/

/-- Settles O30: the next state is the state stored to and advanced, whose reads are those of a write of acc. -/
theorem storeCompletes : Obligations.StoreCompletes := fun s k hwf hk =>
  ⟨(s.store k s.acc).advance, exec_store_of_lt hk, rfl, rfl, rfl, rfl, Memory.write_size s.mem k s.acc,
    Memory.read?_write_self hwf hk s.acc,
    fun a ha => (Memory.read?_write hwf hk s.acc a).trans (if_neg ha)⟩

/-! ### The writers of acc -/

/-- A completed body leaves acc, or it is of one of the seven instructions that write it (10_state.md R17). -/
theorem Completed.acc_eq_or_writes_acc {i : Instr} {s t : State} (hc : Completed i s t) :
    t.acc = s.acc ∨ i.mnemonic ∈ [Mnemonic.add, .sub, .clear, .or, .and, .shiftr, .shiftl] := by
  cases hc with
  | acc r hi => exact .inr hi
  | store k _ _ => exact .inl rfl
  | bge k _ =>
    rw [State.branch_eq_setPc]
    exact .inl rfl
  | blt k _ =>
    rw [State.branch_eq_setPc]
    exact .inl rfl
  | endRun k _ => exact .inl rfl

/-- Settles O50: a raise leaves acc, and so does a completed body that is of none of the seven. -/
theorem accWrittenOnlyBySeven : Obligations.AccWrittenOnlyBySeven := by
  intro m s t h hacc
  rcases stepWith_raises_or_completes h with ⟨d, rfl⟩ | ⟨w, i, u, hw, hd, hc, rfl⟩
  · exact absurd (s.raise_acc d) hacc
  · rw [emitCompleted_acc] at hacc
    exact ⟨w, i, hw, hd, hc.acc_eq_or_writes_acc.resolve_left hacc⟩

/-! ### The reset state of the model's own parameters -/

/-- Settles O26: it is the reset state of the empty image, which is admitted (70_reset_and_hazards.md R111; log 2). -/
theorem resetMeetsInvariant : Obligations.ResetMeetsInvariant :=
  ⟨rfl, fun m => State.resetWith_inv m (image := []) 0 (Nat.zero_le 2048)⟩

end Sys2Proof.Machine
end
